-- ==== Sys2Proof/Word.lean ====
section
/-! DEFINITION. The words of SM4CORE: bytes, 32-bit words, the index of an operand register, and the
four-word groups every block, key and Feistel window is made of (spec/00_scope.md R6, R7, R8). -/

namespace Sys2Proof

/-- 8 bits (R7). -/
abbrev Byte := BitVec 8

/-- 32 bits (R6, R7). -/
abbrev Word := BitVec 32

/-- The index of an operand register `W[0..7]` (R21). -/
abbrev Reg := Fin 8

/-- Four 32-bit words in order: a 16-byte block as "four 32-bit big-endian words" (R8), the key's
words `MK_0..MK_3` (R104), the Feistel window `(X_i, X_{i+1}, X_{i+2}, X_{i+3})` (R35), or the four
registers `W[b..b+3]` (R76). -/
structure Quad where
  x0 : Word
  x1 : Word
  x2 : Word
  x3 : Word
  deriving DecidableEq, Repr

end Sys2Proof
end

