-- ==== Sys2Proof/Machine/Operands.lean ====
section
/-! DEFINITION. The bit-level operators of spec/00_scope.md R8 to R10: bytes of a word, rotation,
matrices over GF(2), and multiplication in GF(2^8). -/

namespace Sys2Proof.Machine

/-- `byte_j(x) = x[31-8j : 24-8j]`: byte 0 is the most significant (R8). -/
def byteOf (j : Nat) (x : Word) : Byte := x.extractLsb' (24 - 8 * j) 8

/-- `word(b0, b1, b2, b3)`: b0 is the most significant byte (R8). -/
def wordOf (b0 b1 b2 b3 : Byte) : Word := b0 ++ b1 ++ b2 ++ b3

/-- `rotl32(x, n)` for 0 < n < 32 (R9). -/
def rotl32 (x : Word) (n : Nat) : Word := (x <<< n) ||| (x >>> (32 - n))

/-- Bytewise substitution on a word: each byte on its own, reassembled in place (R142). -/
def onBytes (f : Byte → Byte) (x : Word) : Word :=
  wordOf (f (byteOf 0 x)) (f (byteOf 1 x)) (f (byteOf 2 x)) (f (byteOf 3 x))

/-- `parity(v)`: the XOR of all bits of a byte (R9). -/
def parity (v : Byte) : Bool :=
  v.getLsbD 0 ^^ v.getLsbD 1 ^^ v.getLsbD 2 ^^ v.getLsbD 3 ^^ v.getLsbD 4 ^^ v.getLsbD 5 ^^ v.getLsbD 6 ^^
    v.getLsbD 7

/-- The byte whose bit i is `bit i`. -/
def byteOfBits (bit : Fin 8 → Bool) : Byte :=
  BitVec.ofBool (bit 7) ++ BitVec.ofBool (bit 6) ++ BitVec.ofBool (bit 5) ++ BitVec.ofBool (bit 4) ++
    BitVec.ofBool (bit 3) ++ BitVec.ofBool (bit 2) ++ BitVec.ofBool (bit 1) ++ BitVec.ofBool (bit 0)

/-- `M·x`: the byte whose bit i is `parity(m_i & x)` (R10). -/
def matMul (m : Vector Byte 8) (x : Byte) : Byte := byteOfBits fun i => parity (m[i] &&& x)

/-- The affine map `M·x ⊕ c` (R10). -/
def affine (m : Vector Byte 8) (c x : Byte) : Byte := matMul m x ^^^ c

/-- Multiplication by z modulo the polynomial whose low byte is `red`: the loop body of R150. -/
def timesZ (red a : Byte) : Byte := (a <<< 1) ^^^ (if a.getLsbD 7 then red else 0)

/-- The loop of R150 from bit `i` on, `n` bits to go. -/
def gmulLoop (red : Byte) (b : Byte) : (n : Nat) → (i : Nat) → (a r : Byte) → Byte
  | 0, _, _, r => r
  | n + 1, i, a, r => gmulLoop red b n (i + 1) (timesZ red a) (if b.getLsbD i then r ^^^ a else r)

/-- `gmul_AES(a, b)`, modulo z^8 + z^4 + z^3 + z + 1 (R150). -/
def gmulAes (a b : Byte) : Byte := gmulLoop 0x1B b 8 0 a 0

/-- `gmul_SM4(a, b)`, modulo z^8 + z^7 + z^6 + z^5 + z^4 + z^2 + 1 (R177). -/
def gmulSm4 (a b : Byte) : Byte := gmulLoop 0xF5 b 8 0 a 0

/-- A fixed square-and-multiply chain under a product, `n` steps to go: `p <- p², r <- r·p` (R171). -/
def powChain (mul : Byte → Byte → Byte) : (n : Nat) → (p r : Byte) → Byte
  | 0, _, r => r
  | n + 1, p, r => powChain mul n (mul p p) (mul r (mul p p))

/-- `u^254 = u^(2+4+8+16+32+64+128)` under a product: seven steps of the chain from `p = u`, `r = 1` (R171). -/
def pow254 (mul : Byte → Byte → Byte) (u : Byte) : Byte := powChain mul 7 u 0x01

end Sys2Proof.Machine
end

