-- ==== Sys2Proof/Config.lean ====
section
/-! DEFINITION. What an instance of SM4CORE fixes (spec/00_scope.md R5), the names of the three
backends (spec/10_state.md R30), and the free values. -/

namespace Sys2Proof

/-- The three backends, the value of BSEL (R30): 0 = A, 1 = B, 2 = C. The value 3 never occurs. -/
inductive Backend where
  /-- Backend A, table lookup (R140 to R145). -/
  | table
  /-- Backend B, AES isomorphism (R150 to R162). -/
  | aes
  /-- Backend C, software affine/inversion (R170 to R177). -/
  | simd
  deriving DecidableEq, Repr

/-- The two behavioural parameters of R5. A model takes both as arguments: every state carries them
as its CAP register (R29), so a statement about every state is a statement about every value.
The third parameter, `SM4CORE_BASE`, changes no behaviour and is left out, as R5 allows (log 8). -/
structure Config where
  /-- `HAS_AES`: the AES final-round unit of Backend B is present. -/
  hasAes : Bool
  /-- `HAS_GATHER`: Backend C computes its substitution by table gather. -/
  hasGather : Bool
  deriving DecidableEq, Repr

/-- The defaults of R5: `HAS_AES = 1`, `HAS_GATHER = 0` (log 7). -/
def Config.default : Config := { hasAes := true, hasGather := false }

/-- FREE VALUE (log 4). The word `RK[i]` holds after a KEYREL: "value unspecified from here on" (R106).
`draw` numbers the KEYRELs that drew values. It has no body, so nothing can be proved of its value. -/
opaque Config.releasedSubkey (draw : Nat) (i : Fin 32) : Word

end Sys2Proof
end

