-- ==== Sys2Proof/Syntax.lean ====
section
/-! DEFINITION. The commands of SM4CORE: one constructor per row of spec/opcode_table.json, with the
operands of spec/30_encoding.md R76. -/

namespace Sys2Proof

/-- A command (R77). `rd`, `rs`, `rt` are W indices 0..7, `len` a byte count 0..255, `b` a backend,
`i` the 5-bit index of a round constant (R73 to R76). -/
inductive Instr where
  /-- KEYINIT: build the CipherKey from KEY (R105). -/
  | keyinit (len : Fin 256)
  /-- KEYREL: release the CipherKey (R106). -/
  | keyrel
  /-- SELB: select the backend of ENC and DEC (R190). `b = 3` is no command (R79), so no term. -/
  | selb (b : Backend)
  /-- ENC: encrypt `DIN[0 .. len-1]` into `DOUT[0 .. len-1]` (R126). -/
  | enc (len : Fin 256)
  /-- DEC: decrypt `DIN[0 .. len-1]` into `DOUT[0 .. len-1]` (R127). -/
  | dec (len : Fin 256)
  /-- SUBA: word substitution by table (R143). -/
  | suba (rd rs : Reg)
  /-- SUBB: word substitution through the AES final-round unit (R160). -/
  | subb (rd rs : Reg)
  /-- SUBC: word substitution by software inversion or gather (R175). -/
  | subc (rd rs : Reg)
  /-- LIN: the cipher's linear transform L (R131). -/
  | lin (rd rs : Reg)
  /-- LINK: the key schedule's linear transform L' (R108). -/
  | link (rd rs : Reg)
  /-- RND: one cipher round on `W[rs..rs+3]` with round key `W[rt]` (R130). -/
  | rnd (rd rs rt : Reg)
  /-- KRND: one key-schedule round on `W[rs..rs+3]` with `CK[i]` (R107). -/
  | krnd (rd rs : Reg) (i : Fin 32)
  /-- AESL: one AES final round, state `W[rs..rs+3]`, key `W[rt..rt+3]` (R161). -/
  | aesl (rd rs rt : Reg)
  deriving DecidableEq, Repr

end Sys2Proof
end

