-- ==== Sys2Proof/WellFormed.lean ====
section
/-! DEFINITION. The field constraints of spec/30_encoding.md R79: the terms of Instr that some command
word spells. -/

namespace Sys2Proof

/-- A base of four consecutive registers: `rs ≤ 4`, since `W[rs+3]` must exist (R79). -/
def windowBase (r : Reg) : Bool := r.val ≤ 4

/-- A base of an aligned group of four registers: 0 or 4 (R79). -/
def groupBase (r : Reg) : Bool := r.val == 0 || r.val == 4

/-- The constraints of R79. SELB's `b ≤ 2` holds of every term, by the type Backend. -/
def Instr.wellFormed : Instr → Bool
  | .keyinit _ => true
  | .keyrel => true
  | .selb _ => true
  | .enc _ => true
  | .dec _ => true
  | .suba _ _ => true
  | .subb _ _ => true
  | .subc _ _ => true
  | .lin _ _ => true
  | .link _ _ => true
  | .rnd _ rs _ => windowBase rs
  | .krnd _ rs _ => windowBase rs
  | .aesl rd rs rt => groupBase rd && groupBase rs && groupBase rt

end Sys2Proof
end

