-- ==== Sys2Proof/Decode.lean ====
section
/-! DEFINITION. From a command word to a command and back (spec/30_encoding.md R70 to R81). Decoding is
total: every 32-bit word is a command or is rejected by name. -/

namespace Sys2Proof

/-- Why a command word is illegal (R80). Each of them fails with ILLEGAL_CMD (R205); SM4CORE does not
report which. -/
inductive IllegalWord where
  /-- The opcode byte is none of R77's. -/
  | unassignedOpcode
  /-- A bit the command does not use is set (R78). -/
  | unusedBits
  /-- SELB with `b = 3` (R79). -/
  | noSuchBackend
  /-- RND or KRND with `rs > 4` (R79). -/
  | windowPastW7
  /-- AESL with a base outside 0 and 4 (R79). -/
  | unalignedGroup
  deriving DecidableEq, Repr

/-- `v[hi:lo]`, read as an unsigned number (R7). -/
def bitField (v : Word) (hi lo : Nat) : Nat := (v.toNat >>> lo) % 2 ^ (hi + 1 - lo)

/-- The operands of a command word (R73 to R76). None is extended, scaled or shifted. -/
def fieldRd (v : Word) : Reg := Fin.ofNat 8 (bitField v 23 21)

def fieldRs (v : Word) : Reg := Fin.ofNat 8 (bitField v 20 18)

def fieldRt (v : Word) : Reg := Fin.ofNat 8 (bitField v 17 15)

def fieldImm5 (v : Word) : Fin 32 := Fin.ofNat 32 (bitField v 14 10)

def fieldLen (v : Word) : Fin 256 := Fin.ofNat 256 (bitField v 7 0)

/-- The backend a number names (R74); 3 names none (R79). -/
def backendOf : Nat → Option Backend
  | 0 => some .table
  | 1 => some .aes
  | 2 => some .simd
  | _ => none

/-- SELB's operand, or the rejection of `b = 3` (R79). -/
def buildSelb (v : Word) : Except IllegalWord Instr :=
  match backendOf (bitField v 1 0) with
  | some b => .ok (.selb b)
  | none => .error .noSuchBackend

/-- RND's operands under `rs ≤ 4` (R79). -/
def buildRnd (v : Word) : Except IllegalWord Instr :=
  if windowBase (fieldRs v) then .ok (.rnd (fieldRd v) (fieldRs v) (fieldRt v)) else .error .windowPastW7

/-- KRND's operands under `rs ≤ 4` (R79). -/
def buildKrnd (v : Word) : Except IllegalWord Instr :=
  if windowBase (fieldRs v) then .ok (.krnd (fieldRd v) (fieldRs v) (fieldImm5 v)) else .error .windowPastW7

/-- AESL's operands, each base 0 or 4 (R79). -/
def buildAesl (v : Word) : Except IllegalWord Instr :=
  if groupBase (fieldRd v) && groupBase (fieldRs v) && groupBase (fieldRt v) then
    .ok (.aesl (fieldRd v) (fieldRs v) (fieldRt v))
  else .error .unalignedGroup

/-- One row of the opcode map (R77): a word is this row's command when `word & mask = pattern`, and
then its field constraints must hold too. -/
structure OpRow where
  pattern : Word
  mask : Word
  build : Word → Except IllegalWord Instr

/-- The opcode map, row by row (R77). -/
def opcodeMap : List OpRow :=
  [ ⟨0x01000000, 0xFFFFFF00, fun v => .ok (.keyinit (fieldLen v))⟩,
    ⟨0x02000000, 0xFFFFFFFF, fun _ => .ok .keyrel⟩,
    ⟨0x08000000, 0xFFFFFFFC, buildSelb⟩,
    ⟨0x10000000, 0xFFFFFF00, fun v => .ok (.enc (fieldLen v))⟩,
    ⟨0x11000000, 0xFFFFFF00, fun v => .ok (.dec (fieldLen v))⟩,
    ⟨0x20000000, 0xFF03FFFF, fun v => .ok (.suba (fieldRd v) (fieldRs v))⟩,
    ⟨0x21000000, 0xFF03FFFF, fun v => .ok (.subb (fieldRd v) (fieldRs v))⟩,
    ⟨0x22000000, 0xFF03FFFF, fun v => .ok (.subc (fieldRd v) (fieldRs v))⟩,
    ⟨0x23000000, 0xFF03FFFF, fun v => .ok (.lin (fieldRd v) (fieldRs v))⟩,
    ⟨0x24000000, 0xFF03FFFF, fun v => .ok (.link (fieldRd v) (fieldRs v))⟩,
    ⟨0x25000000, 0xFF007FFF, buildRnd⟩,
    ⟨0x26000000, 0xFF0383FF, buildKrnd⟩,
    ⟨0x27000000, 0xFF007FFF, buildAesl⟩ ]

/-- The opcodes R77 assigns, `word[31:24]` (R71). -/
def assignedOpcodes : List Nat :=
  [0x01, 0x02, 0x08, 0x10, 0x11, 0x20, 0x21, 0x22, 0x23, 0x24, 0x25, 0x26, 0x27]

/-- The command a 32-bit word spells, or why it spells none (R77 to R81). -/
def decode (v : Word) : Except IllegalWord Instr :=
  match opcodeMap.find? (fun r => v &&& r.mask == r.pattern) with
  | some r => r.build v
  | none =>
    if assignedOpcodes.contains (bitField v 31 24) then .error .unusedBits else .error .unassignedOpcode

/-- The number of a backend in SELB's field and in BSEL (R30, R74). -/
def backendNumber : Backend → Nat
  | .table => 0
  | .aes => 1
  | .simd => 2

/-- Format K: `OPC | 0 | LEN` (R73). -/
def wordK (opc : Nat) (len : Fin 256) : Word := BitVec.ofNat 32 (opc <<< 24 ||| len.val)

/-- Format R: `OPC | RD | RS | RT | IMM5 | 0` (R75). -/
def wordR (opc : Nat) (rd rs rt : Reg) (imm : Fin 32) : Word :=
  BitVec.ofNat 32 (opc <<< 24 ||| rd.val <<< 21 ||| rs.val <<< 18 ||| rt.val <<< 15 ||| imm.val <<< 10)

/-- The word of a command (R72 to R77); bits it does not use are zero (R78). -/
def encode : Instr → Word
  | .keyinit len => wordK 0x01 len
  | .keyrel => 0x02000000
  | .selb b => BitVec.ofNat 32 (0x08 <<< 24 ||| backendNumber b)
  | .enc len => wordK 0x10 len
  | .dec len => wordK 0x11 len
  | .suba rd rs => wordR 0x20 rd rs 0 0
  | .subb rd rs => wordR 0x21 rd rs 0 0
  | .subc rd rs => wordR 0x22 rd rs 0 0
  | .lin rd rs => wordR 0x23 rd rs 0 0
  | .link rd rs => wordR 0x24 rd rs 0 0
  | .rnd rd rs rt => wordR 0x25 rd rs rt 0
  | .krnd rd rs i => wordR 0x26 rd rs 0 i
  | .aesl rd rs rt => wordR 0x27 rd rs rt 0

/-- The command this decoder reads from a word given as the opcode table numbers its bits. A command
is ONE 32-bit word (R70) taken from the data of one host write, so bit 0 of the table is bit 0 of the
word; bits at and above `nbits` are zero. -/
def decodeTableWord (nbits w : Nat) : Option Instr :=
  match decode (BitVec.ofNat 32 (w % 2 ^ nbits)) with
  | .ok i => some i
  | .error _ => none

end Sys2Proof
end

