-- ==== Sys2Proof/Machine/State.lean ====
section
/-! DEFINITION. The state of SM4CORE as plain data (spec/10_state.md R20), the host accesses to come
(spec/70_reset_and_hazards.md R239, R240), the reasons a step stops, and the state after reset (R38). -/

namespace Sys2Proof.Machine

/-- The error code of the most recent command, STATUS.ERR (R201). Codes 5 to 15 are never produced. -/
inductive ErrCode where
  /-- Code 0: the command succeeded. -/
  | ok
  /-- Code 1: a length the command does not accept (R202). -/
  | badLength
  /-- Code 2: the AES final-round unit is needed and absent (R203). -/
  | noCap
  /-- Code 3: ENC or DEC with no CipherKey (R204). -/
  | noKey
  /-- Code 4: the command word is illegal (R205). -/
  | illegalCmd
  deriving DecidableEq, Repr

/-- The bytes of KEY, DIN and DOUT, keyed by their window offset (R51): a list of cells with strictly
rising offsets. A byte nothing has written since reset is not listed and has no value (R39, R40, log 3). -/
abbrev Memory := List Host.Cell

/-- The canonical form: offsets strictly rising. (An unlisted byte has no value, so no cell can equal it.) -/
abbrev Memory.wf (m : Memory) : Prop := m.Pairwise fun x y => x.1 < y.1

/-- Widths of a host access that the window never admits (R53). -/
inductive OddWidth where
  | bits16
  | bits64
  deriving DecidableEq, Repr

/-- What the outside world does to SM4CORE, one event at a time (R61, R83, R230, R240). Offsets are
from the window's base (R50). -/
inductive HostEvent where
  /-- `rd.w off`: a 32-bit host read. -/
  | rdW (off : Nat)
  /-- `rd.b off`: an 8-bit host read. -/
  | rdB (off : Nat)
  /-- `wr.w off, v`: a 32-bit host write; at offset 0x000 it issues the command `v` (R27). -/
  | wrW (off : Nat) (v : Word)
  /-- `wr.b off, v`: an 8-bit host write. -/
  | wrB (off : Nat) (v : Byte)
  /-- A read of another width, which the window never admits (R53). -/
  | rdOdd (width : OddWidth) (off : Nat)
  /-- A write of another width, which the window never admits (R53). -/
  | wrOdd (width : OddWidth) (off : Nat)
  /-- The platform asserts reset (R230). -/
  | reset
  deriving DecidableEq, Repr

/-- The value a host read returned. -/
inductive ReadValue where
  | word (v : Word)
  | byte (v : Byte)
  deriving DecidableEq, Repr

/-- The state of SM4CORE. The first eight fields are the spec's (R20, R39); the last three are the
model's own (log 4, log 6). STATUS, CAP and BSEL as the host sees them are computed in Flags.lean. -/
structure State where
  /-- Operand registers `W[0..7]` (R21). -/
  w : Vector Word 8
  /-- Which W registers have been written since reset (R39). No step stops on them (log 1). -/
  wWritten : Vector Bool 8
  /-- The bytes of KEY, DIN and DOUT that have been written since reset (R22, R23, R24, R39). -/
  mem : Memory
  /-- Round-subkey file `RK[0..31]` (R25). It is written exactly while KV = 1 (R39, log 5). -/
  rk : Vector Word 32
  /-- Key-valid flag KV (R26), STATUS[4]. -/
  kv : Bool
  /-- STATUS.ERR (R28). -/
  err : ErrCode
  /-- The selected backend, BSEL (R30). -/
  bsel : Backend
  /-- CAP (R29): the parameters of R5, constant. -/
  cap : Config
  /-- The host's accesses and the platform's resets still to come, the next one first (R239). -/
  host : List HostEvent
  /-- The values the host's reads have returned, oldest first (R239). -/
  returned : List ReadValue
  /-- How many times KEYREL has drawn free values (log 4). -/
  draws : Nat
  deriving DecidableEq, Repr

/-- Why the model stops where the hardware has some value that the spec leaves unspecified (R13, R40). -/
inductive Fault where
  /-- A byte of KEY, DIN or DOUT that nothing has written since reset was read, at this window offset.
  Raised by host reads of KEY, DIN, DOUT, and by KEYINIT, ENC and DEC after their error checks (R40, R41,
  R209). Safe: the hardware goes on with some byte. -/
  | unwrittenByte (off : Nat)
  deriving DecidableEq, Repr

/-- Why the model gives no step (R13, R53). -/
inductive Refusal where
  /-- A command that has no meaning in this model, by its mnemonic. Raised by exec's refused arms only;
  there are none left. Safe. -/
  | notModelled (mnemonic : String)
  /-- A 16-bit or 64-bit host access (R52 item 1, R53). Raised by the host port. Safe. -/
  | accessWidth
  /-- A host access at or beyond offset 0x200 (R52 item 3, R53). Raised by the host port. Safe. -/
  | outsideWindow
  /-- A 32-bit host access whose offset is no multiple of 4 (R52 item 2, R53). Raised by the host port. Safe. -/
  | misaligned
  /-- An 8-bit host access to CMD, STATUS, CAP, BSEL or W (R52 item 4, R53). Raised by the host port. Safe. -/
  | wordOnly
  deriving DecidableEq, Repr

/-- The state after reset (R38, R230) of an instance with the parameters `p`. The spec gives W and RK no
reset value; the model names zero (log 1, log 2). Nothing of KEY, DIN and DOUT is listed: unwritten. -/
def State.resetFor (p : Config) : State :=
  { w := Vector.replicate 8 0
    wWritten := Vector.replicate 8 false
    mem := []
    rk := Vector.replicate 32 0
    kv := false
    err := .ok
    bsel := .table
    cap := p
    host := []
    returned := []
    draws := 0 }

/-- The machine right after reset, with the default parameters of R5 (log 7) and no host access to come. -/
def State.reset : State := State.resetFor Config.default

end Sys2Proof.Machine
end

