-- ==== Sys2Proof/Machine/Ops.lean ====
section
/-! DEFINITION. The named operations over the buffers and registers of SM4CORE, and the two ways a
command ends: `ok` and `raise Err(code)` (spec/00_scope.md R11). SM4CORE takes no exceptions
(spec/60_exceptions.md R211, R212): `failWith` is the one shared way a command reports an error, and
nothing returns from it. -/

namespace Sys2Proof.Machine

/-- One outcome of the model (R13). -/
abbrev Result := Host.Outcome State Fault Refusal

/-! ### The end of a command -/

/-- `raise Err(code)`: STATUS.ERR <- code, and no other state changes (R11, R206). -/
def failWith (code : ErrCode) (s : State) : Result := .next { s with err := code }

/-- `ok`: STATUS.ERR <- 0 (R11, R207). -/
def succeed (s : State) : Result := .next { s with err := .ok }

/-- Go on with what was read, or stop with the fault of reading it (R40). -/
def withRead (r : Except Fault α) (k : α → Result) : Result :=
  match r with
  | .ok v => k v
  | .error f => .fault f

/-! ### Bytes of KEY, DIN and DOUT -/

/-- Offset of KEY[0] (R51). -/
def keyBase : Nat := 0x010

/-- Offset of DIN[0] (R51). -/
def dinBase : Nat := 0x100

/-- Offset of DOUT[0] (R51). -/
def doutBase : Nat := 0x180

/-- What an unlisted byte reads as: no value (R40, log 3). -/
def unwrittenReadsAs : Option Byte := none

/-- The byte at an offset. -/
def byteAt : Memory → Nat → Option Byte
  | [], _ => unwrittenReadsAs
  | (a, b) :: rest, off => if a = off then some b else byteAt rest off

/-- Write one byte, keeping the offsets strictly rising. -/
def setByte : Memory → Nat → Byte → Memory
  | [], off, v => [(off, v)]
  | (a, b) :: rest, off, v =>
    if off < a then (off, v) :: (a, b) :: rest
    else if off = a then (off, v) :: rest
    else (a, b) :: setByte rest off v

/-- Read one byte; a byte nothing has written is a model fault (R40). -/
def readByte (m : Memory) (off : Nat) : Except Fault Byte :=
  match byteAt m off with
  | some b => .ok b
  | none => .error (.unwrittenByte off)

/-- Read the big-endian word at offsets `off .. off+3` (R54); one unwritten byte is a fault (R41). -/
def readWord (m : Memory) (off : Nat) : Except Fault Word := do
  let b0 ← readByte m off
  let b1 ← readByte m (off + 1)
  let b2 ← readByte m (off + 2)
  let b3 ← readByte m (off + 3)
  return wordOf b0 b1 b2 b3

/-- Read the 16 bytes at `off` as four big-endian words (R55). -/
def readQuad (m : Memory) (off : Nat) : Except Fault Quad := do
  let x0 ← readWord m off
  let x1 ← readWord m (off + 4)
  let x2 ← readWord m (off + 8)
  let x3 ← readWord m (off + 12)
  return ⟨x0, x1, x2, x3⟩

/-- BufRead of `n` blocks of 16 bytes, in order (R11, R126). -/
def readQuads (m : Memory) (off : Nat) : Nat → Except Fault (List Quad)
  | 0 => return []
  | n + 1 => do
    let q ← readQuad m off
    let qs ← readQuads m (off + 16) n
    return q :: qs

/-- Write a word big-endian at offsets `off .. off+3` (R54). -/
def writeWord (m : Memory) (off : Nat) (v : Word) : Memory :=
  setByte (setByte (setByte (setByte m off (byteOf 0 v)) (off + 1) (byteOf 1 v)) (off + 2) (byteOf 2 v))
    (off + 3) (byteOf 3 v)

/-- Store a block as `byte_0(Y_0), byte_1(Y_0), ..., byte_3(Y_3)` (R55). -/
def writeQuad (m : Memory) (off : Nat) (q : Quad) : Memory :=
  writeWord (writeWord (writeWord (writeWord m off q.x0) (off + 4) q.x1) (off + 8) q.x2) (off + 12) q.x3

/-- BufWrite of blocks of 16 bytes, in order (R11, R126). -/
def writeQuads (m : Memory) (off : Nat) : List Quad → Memory
  | [] => m
  | q :: qs => writeQuads (writeQuad m off q) (off + 16) qs

/-! ### Operand registers -/

/-- `W[r]` (R11, R21). It holds a value whether or not it has been written (log 1). -/
def readW (s : State) (r : Reg) : Word := s.w[r]

/-- `W[r] <- v`; the register is written from here on (R11, R39). -/
def writeW (s : State) (r : Reg) (v : Word) : State :=
  { s with w := s.w.set r v, wWritten := s.wWritten.set r true }

/-- `W[b], W[b+1], W[b+2], W[b+3]` (R76). Every caller has checked that `b + 3` exists (R79). -/
def readWQuad (s : State) (b : Reg) : Quad :=
  ⟨readW s b, readW s (b + 1), readW s (b + 2), readW s (b + 3)⟩

/-- `W[b..b+3] <- q` (R161). -/
def writeWQuad (s : State) (b : Reg) (q : Quad) : State :=
  writeW (writeW (writeW (writeW s b q.x0) (b + 1) q.x1) (b + 2) q.x2) (b + 3) q.x3

/-- A command that puts a function of one register into another (SUBA, SUBC, LIN, LINK): the source is
read before the destination is written (R12). -/
def unaryCommand (f : Word → Word) (rd rs : Reg) (s : State) : Result :=
  succeed (writeW s rd (f (readW s rs)))

end Sys2Proof.Machine
end

