-- ==== Sys2Proof/Machine/BackendA.lean ====
section
/-! DEFINITION. Backend A, table-lookup substitution (spec/42_backend_a_table.md). -/

namespace Sys2Proof.Machine

/-- `τ_A(x)`: SBOX on each of the four bytes (R142). The name τ without a subscript means this. -/
def tauA (x : Word) : Word := onBytes sbox x

/-- SUBA: `W[rd] <- τ_A(W[rs]); ok` (R143). -/
def execSuba (rd rs : Reg) (s : State) : Result := unaryCommand tauA rd rs s

end Sys2Proof.Machine
end

