-- ==== Sys2Proof/Machine/KeySchedule.lean ====
section
/-! DEFINITION. The key schedule (spec/40_key_schedule.md): L', T', KS and the commands KEYINIT, KEYREL,
KRND, LINK. -/

namespace Sys2Proof.Machine

/-- `L'(x) = x ⊕ rotl32(x, 13) ⊕ rotl32(x, 23)` (R102). -/
def linK (x : Word) : Word := x ^^^ rotl32 x 13 ^^^ rotl32 x 23

/-- `T'(x) = L'(τ(x))`, with the table's τ under every backend (R103). -/
def tK (x : Word) : Word := linK (tauA x)

/-- One key-schedule round: `K_i ⊕ T'(K_{i+1} ⊕ K_{i+2} ⊕ K_{i+3} ⊕ CK_i)` (R104, R107). -/
def keyRound (k : Quad) (c : Word) : Word := k.x0 ^^^ tK (k.x1 ^^^ k.x2 ^^^ k.x3 ^^^ c)

/-- The first `n` round subkeys from the words `K_0..K_3`, with the window `K_n..K_{n+3}` after them (R104). -/
def ksRun (k : Quad) : (n : Nat) → Vector Word n × Quad
  | 0 => (#v[], k)
  | n + 1 =>
    let p := ksRun k n
    let next := keyRound p.2 (ck (Fin.ofNat 32 n))
    (p.1.push next, ⟨p.2.x1, p.2.x2, p.2.x3, next⟩)

/-- `MK_j ⊕ FK_j`, j = 0..3 (R104). -/
def keyStart (mk : Quad) : Quad := ⟨mk.x0 ^^^ fk.x0, mk.x1 ^^^ fk.x1, mk.x2 ^^^ fk.x2, mk.x3 ^^^ fk.x3⟩

/-- The key schedule `KS`, from the key's four big-endian words to the 32 round subkeys (R104). -/
def keySchedule (mk : Quad) : Vector Word 32 := (ksRun (keyStart mk) 32).1

/-- KEYINIT: RK <- KS(KEY), KV <- 1, or BAD_LENGTH unless `len = 16` (R105). -/
def execKeyinit (len : Fin 256) (s : State) : Result :=
  if len.val ≠ 16 then failWith .badLength s
  else withRead (readQuad s.mem keyBase) fun k => succeed { s with rk := keySchedule k, kv := true }

/-- KEYREL: KV <- 0 and RK unspecified from here on: 32 free values (R106, log 4). With no key it
changes nothing but STATUS.ERR: RK is unwritten already (R39, R106, log 5). -/
def execKeyrel (s : State) : Result :=
  if s.kv then
    succeed { s with kv := false, rk := Vector.ofFn (Config.releasedSubkey s.draws), draws := s.draws + 1 }
  else succeed s

/-- KRND: one key-schedule round on `W[rs..rs+3]` with `CK[i]` (R107). A base past W4 spells no command
(R79, R80, log 14). -/
def execKrnd (rd rs : Reg) (i : Fin 32) (s : State) : Result :=
  if !windowBase rs then failWith .illegalCmd s
  else succeed (writeW s rd (keyRound (readWQuad s rs) (ck i)))

/-- LINK: `W[rd] <- L'(W[rs]); ok` (R108). -/
def execLink (rd rs : Reg) (s : State) : Result := unaryCommand linK rd rs s

end Sys2Proof.Machine
end

