-- ==== Sys2Proof/Machine/BackendB.lean ====
section
/-! DEFINITION. Backend B, the S-box through the emulated AES final-round unit (spec/43_backend_b_aes.md). -/

namespace Sys2Proof.Machine

/-- An AES state: byte `st[r + 4c]` is in row r, column c (R153). -/
abbrev AesState := Fin 16 → Byte

/-- Where ShiftRows takes byte `r + 4c` of its result from: `r + 4·((c + r) mod 4)` (R153). -/
def shiftSource (j : Fin 16) : Fin 16 := Fin.ofNat 16 (j.val % 4 + 4 * ((j.val / 4 + j.val % 4) % 4))

/-- Where the byte that starts at `r + 4c` ends: `pos(r + 4c) = r + 4·((c - r) mod 4)` (R153). -/
def shiftPos (j : Fin 16) : Fin 16 := Fin.ofNat 16 (j.val % 4 + 4 * ((j.val / 4 + 4 - j.val % 4) % 4))

/-- ShiftRows (R153). -/
def shiftRows (st : AesState) : AesState := fun j => st (shiftSource j)

/-- SubBytes (R154). -/
def subBytes (st : AesState) : AesState := fun j => aesSbox (st j)

/-- The AES final-round unit: SubBytes, ShiftRows, AddRoundKey (R154). -/
def aesEncLast (st key : AesState) : AesState := fun j => shiftRows (subBytes st) j ^^^ key j

/-- The AES state whose column c is the c-th word, byte 0 in row 0 (R157, R158, R161). -/
def aesStateOf (q : Quad) : AesState := fun j =>
  byteOf (j.val % 4) (if j.val / 4 = 0 then q.x0 else if j.val / 4 = 1 then q.x1 else if j.val / 4 = 2 then q.x2 else q.x3)

/-- The four words whose bytes are an AES state, column by column (R161). -/
def quadOfAes (v : AesState) : Quad :=
  ⟨wordOf (v 0) (v 1) (v 2) (v 3), wordOf (v 4) (v 5) (v 6) (v 7), wordOf (v 8) (v 9) (v 10) (v 11),
    wordOf (v 12) (v 13) (v 14) (v 15)⟩

/-- Into AES space: `M_IN·x ⊕ C_IN` (R155). -/
def intoAes (x : Byte) : Byte := affine mIn cIn x

/-- Back from AES space: `M_OUT·y ⊕ C_OUT` (R155). -/
def outOfAes (y : Byte) : Byte := affine mOut cOut y

/-- Backend B's byte substitution `sb_B` (R156). -/
def sbB (x : Byte) : Byte := outOfAes (aesSbox (intoAes x))

/-- The round key of zeros (R157). -/
def zeroKey : AesState := fun _ => 0

/-- One pass of the unit with a zero key, each byte read back from the position ShiftRows moved it to
and mapped out of AES space (R157, R158). -/
def unitPass (st : AesState) : AesState := fun j => outOfAes (aesEncLast st zeroKey (shiftPos j))

/-- `τ_B(x)`: x in column 0, the other twelve bytes zero (R157). -/
def tauB (x : Word) : Word :=
  let v := unitPass fun j => if j.val < 4 then intoAes (byteOf j.val x) else 0
  wordOf (v 0) (v 1) (v 2) (v 3)

/-- The substituted words of four lanes through one AES state `S_h` (R158). -/
def tauB4 (q : Quad) : Quad := quadOfAes (unitPass fun j => intoAes (aesStateOf q j))

/-- The substituted words of a batch, four lanes to an AES state: two states for eight lanes (R158). -/
def batchTauB : List Word → List Word
  | t0 :: t1 :: t2 :: t3 :: rest =>
    let q := tauB4 ⟨t0, t1, t2, t3⟩
    q.x0 :: q.x1 :: q.x2 :: q.x3 :: batchTauB rest
  | _ => []

/-- SUBB: `W[rd] <- τ_B(W[rs])`, or NO_CAP without the unit (R160). -/
def execSubb (rd rs : Reg) (s : State) : Result :=
  if s.cap.hasAes then unaryCommand tauB rd rs s else failWith .noCap s

/-- AESL: one AES final round on register groups, all eight sources read before any write (R161). A
base outside 0 and 4 spells no command (R79, R80, log 14). -/
def execAesl (rd rs rt : Reg) (s : State) : Result :=
  if !(groupBase rd && groupBase rs && groupBase rt) then failWith .illegalCmd s
  else if !s.cap.hasAes then failWith .noCap s
  else
    succeed (writeWQuad s rd
      (quadOfAes (aesEncLast (aesStateOf (readWQuad s rs)) (aesStateOf (readWQuad s rt)))))

end Sys2Proof.Machine
end

