-- ==== Sys2Proof/Machine/BackendC.lean ====
section
/-! DEFINITION. Backend C, substitution by software inversion or by table gather, lane by lane
(spec/44_backend_c_simd.md). It uses no part of the AES final-round unit (R170). -/

namespace Sys2Proof.Machine

/-- `inv_soft(u) = u^254` in the AES field, by the chain: `inv_AES(u)` of R151 (R171). -/
def invSoft (u : Byte) : Byte := pow254 gmulAes u

/-- The software AES S-box (R172). -/
def sboxSoft (u : Byte) : Byte := affine aAes 0x63 (invSoft u)

/-- Backend C's byte substitution: a gather of SBOX when `HAS_GATHER = 1`, else the affine isomorphism
around the software S-box (R173). -/
def sbC (gather : Bool) (x : Byte) : Byte :=
  if gather then sbox x else affine mOut cOut (sboxSoft (affine mIn cIn x))

/-- `inv_SM4(a) = a^254` in SM4's own field (R177). -/
def invSm4 (a : Byte) : Byte := pow254 gmulSm4 a

/-- The direct form of SBOX in SM4's own field: a second check of the table, no data path (R177). -/
def sboxDirect (x : Byte) : Byte := affine aSm4 0xD3 (invSm4 (affine aSm4 0xD3 x))

/-- `τ_C(x)` (R174). -/
def tauC (gather : Bool) (x : Word) : Word := onBytes (sbC gather) x

/-- The substituted words of a batch, lane by lane (R176). -/
def batchTauC (gather : Bool) (ts : List Word) : List Word := ts.map (tauC gather)

/-- SUBC: `W[rd] <- τ_C(W[rs]); ok`, whatever the capabilities (R175). -/
def execSubc (rd rs : Reg) (s : State) : Result := unaryCommand (tauC s.cap.hasGather) rd rs s

end Sys2Proof.Machine
end

