-- ==== Sys2Proof/Machine/Flags.lean ====
section
/-! DEFINITION. The status and control words the host sees (spec/10_state.md R28, R29, R30) and the
checks that decide a command's error code (spec/60_exceptions.md R201 to R204). SM4CORE has no
condition codes (R34). -/

namespace Sys2Proof.Machine

/-- The number of an error code in STATUS.ERR (R201). -/
def errNumber : ErrCode → Nat
  | .ok => 0
  | .badLength => 1
  | .noCap => 2
  | .noKey => 3
  | .illegalCmd => 4

/-- STATUS: ERR in [3:0], KV in [4], [31:5] zero (R28). -/
def statusWord (s : State) : Word := BitVec.ofNat 32 (errNumber s.err ||| s.kv.toNat <<< 4)

/-- CAP: AES in [0], GATHER in [1], [31:2] zero (R29). -/
def capWord (s : State) : Word := BitVec.ofNat 32 (s.cap.hasAes.toNat ||| s.cap.hasGather.toNat <<< 1)

/-- BSEL: B in [1:0], [31:2] zero (R30). -/
def bselWord (s : State) : Word := BitVec.ofNat 32 (backendNumber s.bsel)

/-- `G(b)`, the granularity of a backend in bytes (R125). -/
def granularity : Backend → Nat
  | .table => 16
  | .aes => 128
  | .simd => 128

/-- A length ENC and DEC accept under a backend (R125). -/
def legalLength (len : Fin 256) (b : Backend) : Bool :=
  0 < len.val && len.val % granularity b == 0 && len.val ≤ 128

end Sys2Proof.Machine
end

