-- ==== Sys2Proof/Machine/RoundFunction.lean ====
section
/-! DEFINITION. The round function, the linear diffusion L, block encryption and decryption on the three
data paths, and the commands ENC, DEC, RND, LIN (spec/41_round_function.md; the data paths: 42 R144,
43 R158 and R159, 44 R176). -/

namespace Sys2Proof.Machine

/-- `L(x) = x ⊕ rotl32(x, 2) ⊕ rotl32(x, 10) ⊕ rotl32(x, 18) ⊕ rotl32(x, 24)` (R120). -/
def lin (x : Word) : Word := x ^^^ rotl32 x 2 ^^^ rotl32 x 10 ^^^ rotl32 x 18 ^^^ rotl32 x 24

/-- The word a round substitutes: `t = X1 ⊕ X2 ⊕ X3 ⊕ rk` (R122). -/
def roundInput (x : Quad) (rk : Word) : Word := x.x1 ^^^ x.x2 ^^^ x.x3 ^^^ rk

/-- The word a round produces from its substituted word: `X4 = X0 ⊕ L(s)` (R122). -/
def roundOutput (x : Quad) (s : Word) : Word := x.x0 ^^^ lin s

/-- The round function `F(X0, X1, X2, X3, rk)` with word substitution τ (R122). -/
def roundF (tau : Word → Word) (x : Quad) (rk : Word) : Word := roundOutput x (tau (roundInput x rk))

/-- The window moves on by one word (R35). -/
def shiftIn (x : Quad) (x4 : Word) : Quad := ⟨x.x1, x.x2, x.x3, x4⟩

/-- One round on the Feistel window (R122, R123). -/
def feistelRound (tau : Word → Word) (x : Quad) (rk : Word) : Quad := shiftIn x (roundF tau x rk)

/-- The output block `(X35, X34, X33, X32)`: the last window reversed (R123). -/
def reverseQuad (x : Quad) : Quad := ⟨x.x3, x.x2, x.x1, x.x0⟩

/-- Block encryption `E(P, rk)` with word substitution τ, the subkeys used in list order (R123). -/
def encryptBlock (tau : Word → Word) (rks : List Word) (p : Quad) : Quad :=
  reverseQuad (rks.foldl (feistelRound tau) p)

/-- Block decryption: the same computation with the subkeys in reverse order (R124). -/
def decryptBlock (tau : Word → Word) (rks : List Word) (c : Quad) : Quad := encryptBlock tau rks.reverse c

/-- One round of a batch: every lane's word goes through the batch's substitution together, with the same
subkey in every lane; L and the window work on each lane alone (R158, R159, R176). -/
def batchRound (batchTau : List Word → List Word) (lanes : List Quad) (rk : Word) : List Quad :=
  List.zipWith (fun x s => shiftIn x (roundOutput x s)) lanes (batchTau (lanes.map (roundInput · rk)))

/-- A batch of blocks, lane k being block k (R158, R176). -/
def encryptBatch (batchTau : List Word → List Word) (rks : List Word) (lanes : List Quad) : List Quad :=
  (rks.foldl (batchRound batchTau) lanes).map reverseQuad

/-- The blocks of one ENC under the selected backend (R126): block by block under A (R144), as one batch
under B (R158) and C (R176). The subkeys are used in list order. -/
def transformBlocks (b : Backend) (gather : Bool) (rks : List Word) (blocks : List Quad) : List Quad :=
  match b with
  | .table => blocks.map (encryptBlock tauA rks)
  | .aes => encryptBatch batchTauB rks blocks
  | .simd => encryptBatch (batchTauC gather) rks blocks

/-- ENC and DEC, given the subkeys in the order they are used: BAD_LENGTH, then NO_KEY, then the blocks
of DIN into DOUT (R126, R127, R208). They never read CAP.AES (R128). -/
def cipherCommand (rks : List Word) (len : Fin 256) (s : State) : Result :=
  if !legalLength len s.bsel then failWith .badLength s
  else if !s.kv then failWith .noKey s
  else withRead (readQuads s.mem dinBase (len.val / 16)) fun blocks =>
    succeed { s with mem := writeQuads s.mem doutBase (transformBlocks s.bsel s.cap.hasGather rks blocks) }

/-- ENC: encrypt `DIN[0 .. len-1]` into `DOUT[0 .. len-1]`, RK[0] to RK[31] in order (R126, R25). -/
def execEnc (len : Fin 256) (s : State) : Result := cipherCommand s.rk.toList len s

/-- DEC: decrypt `DIN[0 .. len-1]` into `DOUT[0 .. len-1]`, RK in reverse order (R127, R25). -/
def execDec (len : Fin 256) (s : State) : Result := cipherCommand s.rk.toList.reverse len s

/-- RND: one cipher round on `W[rs..rs+3]` with round key `W[rt]` and τ_A, all sources read before the
write (R130). A base past W4 spells no command (R79, R80, log 14). -/
def execRnd (rd rs rt : Reg) (s : State) : Result :=
  if !windowBase rs then failWith .illegalCmd s
  else succeed (writeW s rd (roundF tauA (readWQuad s rs) (readW s rt)))

/-- LIN: `W[rd] <- L(W[rs]); ok` (R131). -/
def execLin (rd rs : Reg) (s : State) : Result := unaryCommand lin rd rs s

end Sys2Proof.Machine
end

