-- ==== Sys2Proof/Machine/SelectBackend.lean ====
section
/-! DEFINITION. Backend selection: the command SELB (spec/45_config.md). -/

namespace Sys2Proof.Machine

/-- SELB: BSEL <- b, or NO_CAP for Backend B without the AES unit (R190). -/
def execSelb (b : Backend) (s : State) : Result :=
  if b = .aes ∧ s.cap.hasAes = false then failWith .noCap s else succeed { s with bsel := b }

end Sys2Proof.Machine
end

