-- ==== Sys2Proof/Machine/Dispatch.lean ====
section
/-! DEFINITION. One arm per command: the meaning each constructor of Instr has. -/

namespace Sys2Proof.Machine

def exec (i : Instr) (s : State) : Host.Outcome State Fault Refusal :=
  match i with
  | .keyinit len => Sys2Proof.Machine.execKeyinit len s
  | .keyrel => Sys2Proof.Machine.execKeyrel s
  | .selb b => Sys2Proof.Machine.execSelb b s
  | .enc len => Sys2Proof.Machine.execEnc len s
  | .dec len => Sys2Proof.Machine.execDec len s
  | .suba rd rs => Sys2Proof.Machine.execSuba rd rs s
  | .subb rd rs => Sys2Proof.Machine.execSubb rd rs s
  | .subc rd rs => Sys2Proof.Machine.execSubc rd rs s
  | .lin rd rs => Sys2Proof.Machine.execLin rd rs s
  | .link rd rs => Sys2Proof.Machine.execLink rd rs s
  | .rnd rd rs rt => Sys2Proof.Machine.execRnd rd rs rt s
  | .krnd rd rs c => Sys2Proof.Machine.execKrnd rd rs c s
  | .aesl rd rs rt => Sys2Proof.Machine.execAesl rd rs rt s

end Sys2Proof.Machine
end

