-- ==== Sys2Proof/Machine/HostPort.lean ====
section
/-! DEFINITION. The host port: the register window, which accesses it admits, and what one host access
does (spec/20_memory.md). -/

namespace Sys2Proof.Machine

/-- The parts of the register window (R51). -/
inductive Region where
  | cmd | status | cap | bsel | key | w | reserved | din | dout
  deriving DecidableEq, Repr

/-- The register map: the part of the window an offset lies in, and none at or beyond 0x200 (R51, R52
item 3). -/
def regionOf (off : Nat) : Option Region :=
  if off < 0x004 then some .cmd
  else if off < 0x008 then some .status
  else if off < 0x00C then some .cap
  else if off < 0x010 then some .bsel
  else if off < 0x020 then some .key
  else if off < 0x040 then some .w
  else if off < 0x100 then some .reserved
  else if off < 0x180 then some .din
  else if off < 0x200 then some .dout
  else none

/-- Where 8-bit accesses are admitted: KEY and 0x040 to 0x1FF (R51, R52 item 4). -/
def Region.admitsBytes : Region → Bool
  | .cmd => false
  | .status => false
  | .cap => false
  | .bsel => false
  | .key => true
  | .w => false
  | .reserved => true
  | .din => true
  | .dout => true

/-- The part of the window a 32-bit access reaches, or why it is not admitted (R52, R53). -/
def admitWord (off : Nat) : Except Refusal Region :=
  match regionOf off with
  | none => .error .outsideWindow
  | some r => if off % 4 = 0 then .ok r else .error .misaligned

/-- The part of the window an 8-bit access reaches, or why it is not admitted (R52, R53). -/
def admitByte (off : Nat) : Except Refusal Region :=
  match regionOf off with
  | none => .error .outsideWindow
  | some r => if r.admitsBytes then .ok r else .error .wordOnly

/-- The operand register at an offset: W[i] at 0x020 + 4i (R51). -/
def wIndex (off : Nat) : Reg := Fin.ofNat 8 ((off - 0x020) / 4)

/-- The value of an admitted 32-bit read (R51, R54, R57, R58). -/
def wordAt (r : Region) (off : Nat) (s : State) : Except Fault Word :=
  match r with
  | .cmd => .ok 0
  | .status => .ok (statusWord s)
  | .cap => .ok (capWord s)
  | .bsel => .ok (bselWord s)
  | .key => readWord s.mem off
  | .w => .ok (readW s (wIndex off))
  | .reserved => .ok 0
  | .din => readWord s.mem off
  | .dout => readWord s.mem off

/-- The value of an admitted 8-bit read (R51, R57); an 8-bit access reaches no other part (R52). -/
def byteReadAt (r : Region) (off : Nat) (s : State) : Except Fault Byte :=
  match r with
  | .key => readByte s.mem off
  | .din => readByte s.mem off
  | .dout => readByte s.mem off
  | .reserved => .ok 0
  | .cmd => .ok 0
  | .status => .ok 0
  | .cap => .ok 0
  | .bsel => .ok 0
  | .w => .ok 0

/-- Issue a command word: execute the command it spells, or fail with ILLEGAL_CMD (R27, R80, R205). -/
def issue (v : Word) (s : State) : Result :=
  match decode v with
  | .ok i => exec i s
  | .error _ => failWith .illegalCmd s

/-- An admitted 32-bit write (R51, R54, R57, R58, R59). -/
def wordWriteAt (r : Region) (off : Nat) (v : Word) (s : State) : Result :=
  match r with
  | .cmd => issue v s
  | .status => .next s
  | .cap => .next s
  | .bsel => .next s
  | .key => .next { s with mem := writeWord s.mem off v }
  | .w => .next (writeW s (wIndex off) v)
  | .reserved => .next s
  | .din => .next { s with mem := writeWord s.mem off v }
  | .dout => .next s

/-- An admitted 8-bit write (R51, R56, R57, R58). -/
def byteWriteAt (r : Region) (off : Nat) (v : Byte) (s : State) : Result :=
  match r with
  | .key => .next { s with mem := setByte s.mem off v }
  | .din => .next { s with mem := setByte s.mem off v }
  | .dout => .next s
  | .reserved => .next s
  | .cmd => .next s
  | .status => .next s
  | .cap => .next s
  | .bsel => .next s
  | .w => .next s

/-- Hand a read's value to the host (R239). -/
def giveBack (v : ReadValue) (s : State) : Result := .next { s with returned := s.returned ++ [v] }

/-- Go on with an access the window admits, or refuse it (R53). -/
def withAdmitted (a : Except Refusal Region) (k : Region → Result) : Result :=
  match a with
  | .ok r => k r
  | .error e => .refused e

/-- The platform's reset: every piece of the spec's state takes its reset value (R38, R230). The host's
remaining accesses, the values it has read and the count of free values drawn are not SM4CORE's (log 9). -/
def platformReset (s : State) : State :=
  { State.resetFor s.cap with host := s.host, returned := s.returned, draws := s.draws }

/-- What one event of the outside world does (R240). -/
def hostEvent (e : HostEvent) (s : State) : Result :=
  match e with
  | .rdW off => withAdmitted (admitWord off) fun r => withRead (wordAt r off s) fun v => giveBack (.word v) s
  | .rdB off => withAdmitted (admitByte off) fun r => withRead (byteReadAt r off s) fun v => giveBack (.byte v) s
  | .wrW off v => withAdmitted (admitWord off) fun r => wordWriteAt r off v s
  | .wrB off v => withAdmitted (admitByte off) fun r => byteWriteAt r off v s
  | .rdOdd _ _ => .refused .accessWidth
  | .wrOdd _ _ => .refused .accessWidth
  | .reset => .next (platformReset s)

/-- The next event of the host's list, which it leaves; with none left the run has ended and nothing
changes (R61, R239, log 15). -/
def nextEvent (s : State) : Result :=
  match s.host with
  | [] => .next s
  | e :: rest => hostEvent e { s with host := rest }

end Sys2Proof.Machine
end

