-- ==== Sys2Proof/Machine/Step.lean ====
section
/-! DEFINITION. One step of SM4CORE: one event of the outside world, with the command it issues executed
completely (spec/20_memory.md R60, R61). -/

namespace Sys2Proof.Machine

/-- One step. SM4CORE has no program counter (R33): what it does next is the host's next access. -/
def step (s : State) : Host.Outcome State Fault Refusal := nextEvent s

/-- `s` with the command word `w` as the host's next access, a 32-bit write to CMD (R27, R70, R83), before
the accesses already there. Bits at and above `nbits` are zero. -/
def State.withFetchWord (s : State) (nbits w : Nat) : State :=
  { s with host := .wrW 0x000 (BitVec.ofNat 32 (w % 2 ^ nbits)) :: s.host }

end Sys2Proof.Machine
end

