-- ==== Sys2Proof/Safety.lean ====
section
/-! DEFINITION. The vocabulary of the claims: what a command reads and writes, which error it must report,
which host accesses are admitted, when a step reads a register nothing has written, and the invariants. Each
is written from the spec's tables, not from the meanings. -/

namespace Sys2Proof.Machine

/-! ### Groups of words and bytes -/

/-- Word `k` of a group of four. -/
def quadWord (q : Quad) (k : Nat) : Word :=
  if k = 0 then q.x0 else if k = 1 then q.x1 else if k = 2 then q.x2 else q.x3

/-- The big-endian word at an offset, of the bytes a function gives (R54). -/
def wordFrom (byte : Nat → Byte) (off : Nat) : Word :=
  wordOf (byte off) (byte (off + 1)) (byte (off + 2)) (byte (off + 3))

/-- The block at an offset, of the bytes a function gives (R55). -/
def quadFrom (byte : Nat → Byte) (off : Nat) : Quad :=
  ⟨wordFrom byte off, wordFrom byte (off + 4), wordFrom byte (off + 8), wordFrom byte (off + 12)⟩

/-- The words `K[0..35]` of the key schedule: `MK[j] ⊕ FK[j]` for j = 0..3, then the 32 subkeys (R104). -/
def keyWords (mk : Quad) : Vector Word 36 :=
  #v[mk.x0 ^^^ fk.x0, mk.x1 ^^^ fk.x1, mk.x2 ^^^ fk.x2, mk.x3 ^^^ fk.x3] ++ keySchedule mk

/-- The `n` bytes from `off` on have been written, and `byte` gives their values. -/
def Holds (m : Memory) (byte : Nat → Byte) (off n : Nat) : Prop :=
  ∀ k, k < n → byteAt m (off + k) = some (byte (off + k))

/-! ### The command words (R77, R79) -/

/-- Some row of the opcode map matches the word and its constraint holds: the word is not illegal (R80).
Written out from the tables of R77 and R79, field by field. -/
def legalWord (v : Word) : Bool :=
  v &&& 0xFFFFFF00 = 0x01000000 || v = 0x02000000 ||
  (v &&& 0xFFFFFFFC = 0x08000000 && v &&& 3 ≠ 3) ||
  v &&& 0xFFFFFF00 = 0x10000000 || v &&& 0xFFFFFF00 = 0x11000000 ||
  v &&& 0xFF03FFFF = 0x20000000 || v &&& 0xFF03FFFF = 0x21000000 || v &&& 0xFF03FFFF = 0x22000000 ||
  v &&& 0xFF03FFFF = 0x23000000 || v &&& 0xFF03FFFF = 0x24000000 ||
  (v &&& 0xFF007FFF = 0x25000000 && (v >>> 18) &&& 7 ≤ 4) ||
  (v &&& 0xFF0383FF = 0x26000000 && (v >>> 18) &&& 7 ≤ 4) ||
  (v &&& 0xFF007FFF = 0x27000000 && ((v >>> 21) &&& 7 = 0 || (v >>> 21) &&& 7 = 4) &&
    ((v >>> 18) &&& 7 = 0 || (v >>> 18) &&& 7 = 4) && ((v >>> 15) &&& 7 = 0 || (v >>> 15) &&& 7 = 4))

/-- The opcodes R80 lists as unassigned: 0x00, 0x03 to 0x07, 0x09 to 0x0F, 0x12 to 0x1F, 0x28 to 0xFF. -/
def unassignedOpcode (opc : Nat) : Bool :=
  opc = 0x00 || (0x03 ≤ opc && opc ≤ 0x07) || (0x09 ≤ opc && opc ≤ 0x0F) || (0x12 ≤ opc && opc ≤ 0x1F) ||
    (0x28 ≤ opc && opc ≤ 0xFF)

/-! ### What a command must report (R208) -/

/-- The commands that need the AES final-round unit: SELB 1, SUBB and AESL (R203). -/
def needsAes : Instr → Bool
  | .keyinit _ => false
  | .keyrel => false
  | .selb b => b = .aes
  | .enc _ => false
  | .dec _ => false
  | .suba _ _ => false
  | .subb _ _ => true
  | .subc _ _ => false
  | .lin _ _ => false
  | .link _ _ => false
  | .rnd _ _ _ => false
  | .krnd _ _ _ => false
  | .aesl _ _ _ => true

/-- The lengths ENC and DEC accept, as R125 lists them: under A the multiples of 16 from 16 to 128, under
B and C only 128. -/
def acceptedLengths : Backend → List Nat
  | .table => [16, 32, 48, 64, 80, 96, 112, 128]
  | .aes => [128]
  | .simd => [128]

/-- The command has a length it does not accept (R202). -/
def hasBadLength (b : Backend) : Instr → Bool
  | .keyinit len => len.val ≠ 16
  | .keyrel => false
  | .selb _ => false
  | .enc len => !(acceptedLengths b).contains len.val
  | .dec len => !(acceptedLengths b).contains len.val
  | .suba _ _ => false
  | .subb _ _ => false
  | .subc _ _ => false
  | .lin _ _ => false
  | .link _ _ => false
  | .rnd _ _ _ => false
  | .krnd _ _ _ => false
  | .aesl _ _ _ => false

/-- The commands that need a CipherKey: ENC and DEC (R204). -/
def needsKey : Instr → Bool
  | .keyinit _ => false
  | .keyrel => false
  | .selb _ => false
  | .enc _ => true
  | .dec _ => true
  | .suba _ _ => false
  | .subb _ _ => false
  | .subc _ _ => false
  | .lin _ _ => false
  | .link _ _ => false
  | .rnd _ _ _ => false
  | .krnd _ _ _ => false
  | .aesl _ _ _ => false

/-- The error a command reports: the first that applies of ILLEGAL_CMD, NO_CAP, BAD_LENGTH, NO_KEY, else
OK (R208). -/
def errorOf (i : Instr) (s : State) : ErrCode :=
  if !i.wellFormed then .illegalCmd
  else if needsAes i && !s.cap.hasAes then .noCap
  else if hasBadLength s.bsel i then .badLength
  else if needsKey i && !s.kv then .noKey
  else .ok

/-- The error a command word reports: an illegal word is not any command (R208). -/
def wordErrorOf (v : Word) (s : State) : ErrCode :=
  match decode v with
  | .ok i => errorOf i s
  | .error _ => .illegalCmd

/-! ### What a command reads and writes (R20) -/

/-- The group `W[b..b+3]`. -/
def group (b : Reg) : List Reg := [b, b + 1, b + 2, b + 3]

/-- The W registers a command reads (R143, R160, R175, R131, R108, R130, R107, R161). -/
def sources : Instr → List Reg
  | .keyinit _ => []
  | .keyrel => []
  | .selb _ => []
  | .enc _ => []
  | .dec _ => []
  | .suba _ rs => [rs]
  | .subb _ rs => [rs]
  | .subc _ rs => [rs]
  | .lin _ rs => [rs]
  | .link _ rs => [rs]
  | .rnd _ rs rt => rt :: group rs
  | .krnd _ rs _ => group rs
  | .aesl _ rs rt => group rs ++ group rt

/-- The W registers a successful command writes (R21). -/
def destinations : Instr → List Reg
  | .keyinit _ => []
  | .keyrel => []
  | .selb _ => []
  | .enc _ => []
  | .dec _ => []
  | .suba rd _ => [rd]
  | .subb rd _ => [rd]
  | .subc rd _ => [rd]
  | .lin rd _ => [rd]
  | .link rd _ => [rd]
  | .rnd rd _ _ => [rd]
  | .krnd rd _ _ => [rd]
  | .aesl rd _ _ => group rd

/-- The window offsets of the buffer bytes a command reads when it passes its checks: KEY for KEYINIT,
`DIN[0 .. len-1]` for ENC and DEC (R22, R23). -/
def bufferReads : Instr → List Nat
  | .keyinit _ => (List.range 16).map (keyBase + ·)
  | .keyrel => []
  | .selb _ => []
  | .enc len => (List.range len.val).map (dinBase + ·)
  | .dec len => (List.range len.val).map (dinBase + ·)
  | .suba _ _ => []
  | .subb _ _ => []
  | .subc _ _ => []
  | .lin _ _ => []
  | .link _ _ => []
  | .rnd _ _ _ => []
  | .krnd _ _ _ => []
  | .aesl _ _ _ => []

/-- The window offsets of the buffer bytes a successful command writes: `DOUT[0 .. len-1]` (R24). -/
def bufferWrites : Instr → List Nat
  | .keyinit _ => []
  | .keyrel => []
  | .selb _ => []
  | .enc len => (List.range len.val).map (doutBase + ·)
  | .dec len => (List.range len.val).map (doutBase + ·)
  | .suba _ _ => []
  | .subb _ _ => []
  | .subc _ _ => []
  | .lin _ _ => []
  | .link _ _ => []
  | .rnd _ _ _ => []
  | .krnd _ _ _ => []
  | .aesl _ _ _ => []

/-! ### The host's accesses (R52, R53) -/

/-- The offsets that admit 8-bit accesses: KEY and 0x040 to 0x1FF (R52 item 4). -/
def byteOffset (off : Nat) : Bool := (0x010 ≤ off && off < 0x020) || (0x040 ≤ off && off < 0x200)

/-- The offsets that admit 32-bit accesses: the multiples of 4 below 0x200 (R52 items 2 and 3). -/
def wordOffset (off : Nat) : Bool := off % 4 = 0 && off < 0x200

/-- An event the window admits (R52). The platform's reset is no access and is never refused (R230). -/
def admitted : HostEvent → Bool
  | .rdW off => wordOffset off
  | .rdB off => byteOffset off
  | .wrW off _ => wordOffset off
  | .wrB off _ => byteOffset off
  | .rdOdd _ _ => false
  | .wrOdd _ _ => false
  | .reset => true

/-- The command an event issues, if it issues one (R27, R59). -/
def commandOf : HostEvent → Option Word
  | .wrW off v => if off = 0x000 then some v else none
  | .rdW _ => none
  | .rdB _ => none
  | .wrB _ _ => none
  | .rdOdd _ _ => none
  | .wrOdd _ _ => none
  | .reset => none

/-- The event issues a word that spells the command `i`. -/
def issues (e : HostEvent) (i : Instr) : Prop := ∃ v, commandOf e = some v ∧ decode v = .ok i

/-! ### Registers nothing has written (R39, R40, log 1) -/

/-- RK is written exactly while KV = 1: KEYINIT writes all of it, KEYREL makes it unwritten (R39, log 5). -/
def rkWritten (s : State) : Bool := s.kv

/-- Which W registers the event reads: the register of a host read of W (R51), or the sources of a command
that passes its checks (R209). -/
def registerReads (e : HostEvent) (s : State) : List Reg :=
  match e with
  | .rdW off => if wordOffset off && 0x020 ≤ off && off < 0x040 then [Fin.ofNat 8 ((off - 0x020) / 4)] else []
  | .wrW off v =>
    if off = 0x000 then
      match decode v with
      | .ok i => if errorOf i s = .ok then sources i else []
      | .error _ => []
    else []
  | .rdB _ => []
  | .wrB _ _ => []
  | .rdOdd _ _ => []
  | .wrOdd _ _ => []
  | .reset => []

/-- R40's verdict on the registers: the next step reads a W register nothing has written since reset. The
model's step goes on with the register's named reset value (log 1); a claim that must not rest on that
value assumes this is false. -/
def readsUnwrittenW (s : State) : Bool :=
  match s.host with
  | [] => false
  | e :: _ => (registerReads e s).any fun r => !s.wWritten[r]

/-- Two states that differ at most in the values of W registers nothing has written and in an RK that
holds no CipherKey. -/
def AgreeOnWritten (s t : State) : Prop :=
  t = { s with w := t.w, rk := t.rk } ∧ (∀ r : Reg, s.wWritten[r] = true → t.w[r] = s.w[r]) ∧
    (s.kv = true → t.rk = s.rk)

/-- Two outcomes of the same kind, with the same reason or with next states related by `r`. -/
def SameOutcome (r : State → State → Prop) : Result → Result → Prop
  | .next s, .next t => r s t
  | .fault f, .fault g => f = g
  | .refused e, .refused g => e = g
  | _, _ => False

/-! ### Invariants -/

/-- The offsets of the bytes KEY, DIN and DOUT (R51). -/
abbrev bufferOffset (off : Nat) : Prop := (0x010 ≤ off ∧ off < 0x020) ∨ (0x100 ≤ off ∧ off < 0x200)

/-- The buffers are in canonical form and hold bytes of KEY, DIN and DOUT only. -/
abbrev State.memoryCanonical (s : State) : Prop :=
  Memory.wf s.mem ∧ ∀ c ∈ s.mem, bufferOffset c.1

/-- BSEL = 1 holds only if CAP.AES = 1 (R30, R162). -/
abbrev State.backendPresent (s : State) : Prop := s.bsel = .aes → s.cap.hasAes = true

/-- While KV = 1, RK is the key schedule of some 16-byte key (R37). -/
def State.keyScheduled (s : State) : Prop := s.kv = true → ∃ k : Quad, s.rk = keySchedule k

end Sys2Proof.Machine
end

