-- ==== Sys2Proof/Certificates/Slice0/Obligations.lean ====
section
/-! DEFINITION. The claims about SM4CORE, from the numbered rules of spec/. Each docstring names the rules it
formalises and, where it rests on a choice of the model, the log entry. -/

open Sys2Proof Sys2Proof.Machine

/-! ### Reset and the host's list -/

/-- R38: after reset KV = 0, STATUS.ERR = 0, STATUS reads 0, BSEL = 0, CAP is `HAS_AES | (HAS_GATHER << 1)`,
and W, KEY, DIN, DOUT and RK are unwritten, for either value of both parameters. Nothing is claimed of the
values the model gives W and RK (log 1, log 2). -/
def Obligations.ResetStateAsSpecified : Prop :=
  ∀ p : Config,
    (State.resetFor p).kv = false ∧ (State.resetFor p).err = .ok ∧ statusWord (State.resetFor p) = 0 ∧
    (State.resetFor p).bsel = .table ∧ bselWord (State.resetFor p) = 0 ∧
    capWord (State.resetFor p) = BitVec.ofNat 32 (p.hasAes.toNat ||| p.hasGather.toNat <<< 1) ∧
    (∀ r : Reg, (State.resetFor p).wWritten[r] = false) ∧
    (∀ off, byteAt (State.resetFor p).mem off = none) ∧ rkWritten (State.resetFor p) = false

/-- R230 with R38: a platform reset is one event. From any state it leaves the reset values of R38, keeps CAP,
and leaves the host's remaining accesses and read values alone (log 9). -/
def Obligations.PlatformResetRestoresResetState : Prop :=
  ∀ (s : State) (rest : List HostEvent), s.host = .reset :: rest →
    ∃ t, step s = .next t ∧ t.kv = false ∧ statusWord t = 0 ∧ t.bsel = .table ∧ t.cap = s.cap ∧
      (∀ r : Reg, t.wWritten[r] = false) ∧ (∀ off, byteAt t.mem off = none) ∧ rkWritten t = false ∧
      t.host = rest ∧ t.returned = s.returned

/-- R239 and log 15: when the host has no access left, a step changes nothing. -/
def Obligations.StepWithNoAccessLeftChangesNothing : Prop :=
  ∀ s : State, s.host = [] → step s = .next s

/-! ### Command words -/

/-- Decode and encode agree on every well-formed command, every operand at every value (R72 to R79). -/
def Obligations.DecodeOfEncodeIsTheCommand : Prop :=
  ∀ i : Instr, i.wellFormed = true → decode (encode i) = .ok i

/-- The other direction: a word that decodes is the word of its command, which is well-formed. No bit of a
legal word is dropped. -/
def Obligations.EncodeOfDecodeIsTheWord : Prop :=
  ∀ (v : Word) (i : Instr), decode v = .ok i → i.wellFormed = true ∧ encode i = v

/-- Words of spec/95_test_vectors.md V21, one or more for each command, and illegal ones. -/
def Obligations.SampleWordsDecode : Prop :=
  decode 0x01000010 = .ok (.keyinit 16) ∧ decode 0x02000000 = .ok .keyrel ∧ decode 0x08000002 = .ok (.selb .simd) ∧
  decode 0x10000080 = .ok (.enc 128) ∧ decode 0x11000080 = .ok (.dec 128) ∧ decode 0x20F80000 = .ok (.suba 7 6) ∧
  decode 0x21200000 = .ok (.subb 1 0) ∧ decode 0x226C0000 = .ok (.subc 3 3) ∧ decode 0x23FC0000 = .ok (.lin 7 7) ∧
  decode 0x24200000 = .ok (.link 1 0) ∧ decode 0x25828000 = .ok (.rnd 4 0 5) ∧
  decode 0x26107C00 = .ok (.krnd 0 4 31) ∧ decode 0x27820000 = .ok (.aesl 4 0 4) ∧
  decode 0x00000000 = .error .unassignedOpcode ∧ decode 0x01000110 = .error .unusedBits ∧
  decode 0x08000003 = .error .noSuchBackend ∧ decode 0x25940000 = .error .windowPastW7 ∧
  decode 0x27220000 = .error .unalignedGroup

/-- R80: a word is illegal when no row of R77 matches it or it breaks a constraint of R79; every unassigned
opcode is illegal; an illegal word fails with ILLEGAL_CMD and changes nothing else. -/
def Obligations.IllegalWordsAreExactlyThose : Prop :=
  ∀ v : Word,
    ((∃ i, decode v = .ok i) ↔ legalWord v = true) ∧
    (unassignedOpcode (bitField v 31 24) = true → legalWord v = false) ∧
    (legalWord v = false → ∀ (s : State) (rest : List HostEvent), s.host = .wrW 0x000 v :: rest →
      step s = .next { s with host := rest, err := .illegalCmd })

/-- R27, R60: a step whose event is a 32-bit write of a command's word to CMD is exactly that command,
executed completely, on the state with that access done. -/
def Obligations.StepRunsTheWrittenCommand : Prop :=
  ∀ (s : State) (rest : List HostEvent) (v : Word) (i : Instr),
    s.host = .wrW 0x000 v :: rest → decode v = .ok i → step s = exec i { s with host := rest }

/-- The fetch of this model: a well-formed command placed as the next access runs as the very next step, on the
state it was placed in. -/
def Obligations.PlacedCommandRunsNext : Prop :=
  ∀ (s : State) (i : Instr), i.wellFormed = true →
    step (s.withFetchWord 32 (encode i).toNat) = exec i s

/-! ### How every command ends -/

/-- R206, R208: a command word that has an error reports the first of ILLEGAL_CMD, NO_CAP, BAD_LENGTH, NO_KEY,
and changes nothing but STATUS.ERR, whatever the registers and buffers hold. -/
def Obligations.FailedCommandChangesOnlyErr : Prop :=
  ∀ (s : State) (rest : List HostEvent) (v : Word), s.host = .wrW 0x000 v :: rest → wordErrorOf v s ≠ .ok →
    step s = .next { s with host := rest, err := wordErrorOf v s }

/-- R200, R207: STATUS.ERR after a command is the command's own code, OK on success, whatever it was before. (A
term that no word spells reports ILLEGAL_CMD, log 14.) -/
def Obligations.ErrIsTheCodeOfTheLastCommand : Prop :=
  ∀ (i : Instr) (s t : State), exec i s = .next t → t.err = errorOf i s

/-- R40, R41, R209 for the buffers (log 3), with log 1: a command is never refused; it faults exactly when it
passes its checks and a buffer byte it reads is unwritten, and the fault names such a byte. It never faults on
a register. -/
def Obligations.CommandFaultsExactlyOnUnwrittenBytes : Prop :=
  ∀ (i : Instr) (s : State),
    (∀ e, exec i s ≠ .refused e) ∧
    ((∃ f, exec i s = .fault f) ↔ errorOf i s = .ok ∧ ∃ off ∈ bufferReads i, byteAt s.mem off = none) ∧
    (∀ off, exec i s = .fault (.unwrittenByte off) → off ∈ bufferReads i ∧ byteAt s.mem off = none)

/-- Every command completes with OK from every state in which it passes its checks and the buffer bytes it
reads are written (R200). W registers need not have been written: the model's choice, log 1. -/
def Obligations.EveryCommandCompletes : Prop :=
  ∀ (i : Instr) (s : State), errorOf i s = .ok → (∀ off ∈ bufferReads i, byteAt s.mem off ≠ none) →
    ∃ t, exec i s = .next t ∧ t.err = .ok

/-! ### The key -/

/-- R104, R105: KEYINIT 16 writes the 32 subkeys of KEY's bytes into RK, sets KV and reports OK, and changes
nothing else; any other length is BAD_LENGTH. (CommandFaultsExactlyOnUnwrittenBytes is about unwritten key bytes.) -/
def Obligations.KeyinitBuildsTheCipherKey : Prop :=
  ∀ s : State,
    (∀ key : Nat → Byte, Holds s.mem key keyBase 16 →
      ∃ (rk : Vector Word 32) (K : Nat → Word),
        exec (.keyinit 16) s = .next { s with rk := rk, kv := true, err := .ok } ∧
        (∀ j, j < 4 → K j = wordFrom key (keyBase + 4 * j) ^^^ quadWord fk j) ∧
        ∀ i : Fin 32, K (i + 4) = K i ^^^ linK (tauA (K (i + 1) ^^^ K (i + 2) ^^^ K (i + 3) ^^^ ck i)) ∧
          rk[i] = K (i + 4)) ∧
    (∀ len : Fin 256, len.val ≠ 16 → exec (.keyinit len) s = .next { s with err := .badLength })

/-- R109: two successful KEYINITs with the same KEY bytes leave the same RK. -/
def Obligations.KeyinitIsDeterminedByKey : Prop :=
  ∀ s s' t t' : State, (∀ k, k < 16 → byteAt s.mem (keyBase + k) = byteAt s'.mem (keyBase + k)) →
    exec (.keyinit 16) s = .next t → exec (.keyinit 16) s' = .next t' → t.rk = t'.rk

/-- R106: KEYREL clears KV, leaves RK with some 32 words (free values, log 4) and changes nothing else of the
machine; with KV = 0 it changes nothing but STATUS.ERR. -/
def Obligations.KeyrelReleasesTheKey : Prop :=
  ∀ s : State,
    (s.kv = true → ∃ rk : Vector Word 32,
      exec .keyrel s = .next { s with kv := false, rk := rk, err := .ok, draws := s.draws + 1 }) ∧
    (s.kv = false → exec .keyrel s = .next { s with err := .ok })

/-- R107: KRND computes one key-schedule round on `W[rs..rs+3]` with CK[i], all sources read before the write;
`rs > 4` is ILLEGAL_CMD. (Unwritten sources hold their reset value, log 1; a term with `rs > 4`, log 14.) -/
def Obligations.KrndComputesOneKeyRound : Prop :=
  ∀ (rd rs : Reg) (i : Fin 32) (s : State),
    (∀ h : rs.val ≤ 4, exec (.krnd rd rs i) s = .next { writeW s rd
      (s.w[rs.val] ^^^ linK (tauA (s.w[rs.val + 1] ^^^ s.w[rs.val + 2] ^^^ s.w[rs.val + 3] ^^^ ck i))) with
        err := .ok }) ∧
    (4 < rs.val → exec (.krnd rd rs i) s = .next { s with err := .illegalCmd })

/-- R107 with R104: with the words K[n..n+3] of a key's schedule in `W[rs..rs+3]`, KRND with CK[n] computes K[n+4],
which is RK[n] of that key, for every n below 32. In the first four rounds the window still holds words of MK xor FK.
So a chain of 32 KRND commands reproduces what KEYINIT stores. (Log 1: the sources need not be marked written.) -/
def Obligations.KrndContinuesTheKeySchedule : Prop :=
  ∀ (rd rs : Reg) (mk : Quad) (s : State) (n : Nat) (h : rs.val ≤ 4) (hn : n < 32),
    s.w[rs.val] = (keyWords mk)[n] → s.w[rs.val + 1] = (keyWords mk)[n + 1] →
    s.w[rs.val + 2] = (keyWords mk)[n + 2] → s.w[rs.val + 3] = (keyWords mk)[n + 3] →
    (keyWords mk)[n + 4] = (keySchedule mk)[n] ∧
      exec (.krnd rd rs ⟨n, hn⟩) s = .next { writeW s rd (keySchedule mk)[n] with err := .ok }

/-- R101: byte j of the table's CK[i] is `((4i + j) × 7) mod 256`. (The table's values are the spec writer's general
knowledge, log 10.) -/
def Obligations.CkFollowsTheFormula : Prop :=
  ∀ (i : Fin 32) (j : Fin 4), byteOf j (ck i) = BitVec.ofNat 8 ((4 * i + j) * 7 % 256)

/-- R102, R108: LINK writes L' of its source: bit i of the result is the XOR of bits i, i - 13 and i - 23
(mod 32) of the source. (An unwritten source holds its reset value, log 1.) -/
def Obligations.LinkComputesLPrime : Prop :=
  ∀ (rd rs : Reg) (s : State), ∃ v : Word,
    exec (.link rd rs) s = .next { writeW s rd v with err := .ok } ∧
    ∀ i, i < 32 → v.getLsbD i =
      (s.w[rs].getLsbD i ^^ s.w[rs].getLsbD ((i + 19) % 32) ^^ s.w[rs].getLsbD ((i + 9) % 32))

/-! ### The cipher -/

/-- R122, R123, R126: ENC of an accepted length (R125) with a key encrypts each block of `DIN[0 .. len-1]` by the 32
rounds into `DOUT[0 .. len-1]` (R24), with τ_A under every backend (R129), and changes nothing else but STATUS.ERR
(R128). -/
def Obligations.EncEncryptsEachBlock : Prop :=
  ∀ (len : Fin 256) (s : State) (din : Nat → Byte),
    (acceptedLengths s.bsel).contains len.val = true → s.kv = true → Holds s.mem din dinBase len.val →
    ∃ t, exec (.enc len) s = .next t ∧ t = { s with mem := t.mem, err := .ok } ∧
      (∀ k, k < len.val / 16 → ∃ X : Nat → Word,
        (∀ j, j < 4 → X j = wordFrom din (dinBase + 16 * k + 4 * j)) ∧
        (∀ i : Fin 32,
          X (i + 4) = X i ^^^ lin (tauA (X (i + 1) ^^^ X (i + 2) ^^^ X (i + 3) ^^^ s.rk[i]))) ∧
        ∀ m j, m < 4 → j < 4 →
          byteAt t.mem (doutBase + 16 * k + 4 * m + j) = some (byteOf j (X (35 - m)))) ∧
      ∀ off, ¬ (doutBase ≤ off ∧ off < doutBase + len.val) → byteAt t.mem off = byteAt s.mem off

/-- R122, R123, R124, R127: DEC of an accepted length (R125) with a key is the same computation with the subkeys in
reverse order, from `DIN[0 .. len-1]` into `DOUT[0 .. len-1]` (R24), with τ_A under every backend (R129), and changes
nothing else but STATUS.ERR (R128). -/
def Obligations.DecDecryptsEachBlock : Prop :=
  ∀ (len : Fin 256) (s : State) (din : Nat → Byte),
    (acceptedLengths s.bsel).contains len.val = true → s.kv = true → Holds s.mem din dinBase len.val →
    ∃ t, exec (.dec len) s = .next t ∧ t = { s with mem := t.mem, err := .ok } ∧
      (∀ k, k < len.val / 16 → ∃ X : Nat → Word,
        (∀ j, j < 4 → X j = wordFrom din (dinBase + 16 * k + 4 * j)) ∧
        (∀ i : Fin 32,
          X (i + 4) = X i ^^^ lin (tauA (X (i + 1) ^^^ X (i + 2) ^^^ X (i + 3) ^^^ s.rk[Fin.rev i]))) ∧
        ∀ m j, m < 4 → j < 4 →
          byteAt t.mem (doutBase + 16 * k + 4 * m + j) = some (byteOf j (X (35 - m)))) ∧
      ∀ off, ¬ (doutBase ≤ off ∧ off < doutBase + len.val) → byteAt t.mem off = byteAt s.mem off

/-- R130: RND computes one cipher round on `W[rs..rs+3]` with round key `W[rt]`, all sources read first;
`rs > 4` is ILLEGAL_CMD. (Unwritten sources hold their reset value, log 1; a term with `rs > 4`, log 14.) -/
def Obligations.RndComputesOneRound : Prop :=
  ∀ (rd rs rt : Reg) (s : State),
    (∀ h : rs.val ≤ 4, exec (.rnd rd rs rt) s = .next { writeW s rd
      (s.w[rs.val] ^^^ lin (tauA (s.w[rs.val + 1] ^^^ s.w[rs.val + 2] ^^^ s.w[rs.val + 3] ^^^ s.w[rt]))) with
        err := .ok }) ∧
    (4 < rs.val → exec (.rnd rd rs rt) s = .next { s with err := .illegalCmd })

/-- R120, R131: LIN writes L of its source: bit i of the result is the XOR of bits i, i - 2, i - 10, i - 18 and
i - 24 (mod 32) of the source. (An unwritten source holds its reset value, log 1.) -/
def Obligations.LinComputesL : Prop :=
  ∀ (rd rs : Reg) (s : State), ∃ v : Word,
    exec (.lin rd rs) s = .next { writeW s rd v with err := .ok } ∧
    ∀ i, i < 32 → v.getLsbD i =
      (s.w[rs].getLsbD i ^^ s.w[rs].getLsbD ((i + 30) % 32) ^^ s.w[rs].getLsbD ((i + 22) % 32) ^^
        s.w[rs].getLsbD ((i + 14) % 32) ^^ s.w[rs].getLsbD ((i + 8) % 32))

/-- R102, R120: L and L' are linear over GF(2) and give 0 at 0. -/
def Obligations.DiffusionsAreLinear : Prop :=
  (∀ a b : Word, lin (a ^^^ b) = lin a ^^^ lin b ∧ linK (a ^^^ b) = linK a ^^^ linK b) ∧
    lin 0 = 0 ∧ linK 0 = 0

/-- R132: DEC undoes ENC of the same length under the same RK, the output copied from DOUT to DIN in between,
whatever backend each of the two runs on. -/
def Obligations.DecUndoesEnc : Prop :=
  ∀ (len : Fin 256) (s t s' : State), exec (.enc len) s = .next t → t.err = .ok →
    s'.kv = true → s'.rk = t.rk → (acceptedLengths s'.bsel).contains len.val = true →
    (∀ j, j < len.val → byteAt s'.mem (dinBase + j) = byteAt t.mem (doutBase + j)) →
    ∃ u, exec (.dec len) s' = .next u ∧ u.err = .ok ∧
      ∀ j, j < len.val → byteAt u.mem (doutBase + j) = byteAt s.mem (dinBase + j)

/-! ### The three substitutions and data paths -/

/-- R141: SBOX is a permutation of the bytes, and `SBOX[0x00] = 0xd6`. -/
def Obligations.SboxIsAPermutation : Prop :=
  (∀ x y : Byte, sbox x = sbox y → x = y) ∧ (∀ y : Byte, ∃ x, sbox x = y) ∧ sbox 0x00 = 0xd6

/-- R151, R171: `inv_soft` is the multiplicative inverse of the AES field, and 0 at 0. -/
def Obligations.InvSoftInvertsInTheAesField : Prop :=
  (∀ a : Byte, a ≠ 0 → gmulAes a (invSoft a) = 0x01) ∧ invSoft 0 = 0

/-- R152, R172: the AES S-box table is the affine formula over the inverse, so the software S-box is the
table. -/
def Obligations.AesSboxIsTheAffineInverse : Prop :=
  ∀ u : Byte, aesSbox u = matMul aAes (invSoft u) ^^^ 0x63

/-- R177: SBOX is also the direct affine/inversion form over SM4's own field. -/
def Obligations.SboxHasTheDirectForm : Prop :=
  ∀ x : Byte, sbox x = matMul aSm4 (invSm4 (matMul aSm4 x ^^^ 0xD3)) ^^^ 0xD3

/-- R156, R174: Backend B's and Backend C's byte substitutions equal SBOX at every byte. -/
def Obligations.ByteSubstitutionsEqualSbox : Prop :=
  ∀ x : Byte, sbB x = sbox x ∧ sbC false x = sbox x ∧ sbC true x = sbox x

/-- R129, R157: τ_A, τ_B and τ_C agree on every word; τ_B through the AES unit, τ_C with or without gather. -/
def Obligations.WordSubstitutionsAgree : Prop :=
  ∀ x : Word, tauB x = tauA x ∧ ∀ gather, tauC gather x = tauA x

/-- R142, R143: SUBA writes SBOX of each of the four bytes of its source, each in its place. (An unwritten
source holds its reset value, log 1.) -/
def Obligations.SubaSubstitutesEachByte : Prop :=
  ∀ (rd rs : Reg) (s : State), ∃ v : Word,
    exec (.suba rd rs) s = .next { writeW s rd v with err := .ok } ∧
    ∀ j, j < 4 → byteOf j v = sbox (byteOf j s.w[rs])

/-- R160: SUBB writes what SUBA would when the AES unit is present, and fails with NO_CAP when it is not. (An
unwritten source holds its reset value, log 1.) -/
def Obligations.SubbEqualsSubaOrNoCap : Prop :=
  ∀ (rd rs : Reg) (s : State),
    (s.cap.hasAes = true → exec (.subb rd rs) s = .next { writeW s rd (tauA s.w[rs]) with err := .ok }) ∧
    (s.cap.hasAes = false → exec (.subb rd rs) s = .next { s with err := .noCap })

/-- R175: SUBC writes what SUBA would, whatever BSEL, `HAS_AES` and `HAS_GATHER`. (An unwritten source holds its
reset value, log 1.) -/
def Obligations.SubcEqualsSuba : Prop :=
  ∀ (rd rs : Reg) (s : State),
    exec (.subc rd rs) s = .next { writeW s rd (tauA s.w[rs]) with err := .ok }

/-- R153, R154, R161: AESL puts in row r, column c of its result group the AES S-box of row r, column
`(c + r) mod 4` of the state group, XORed with row r, column c of the key group; everything else is
unchanged. Without the unit it is NO_CAP; with a base outside 0 and 4 it is ILLEGAL_CMD. (Unwritten sources hold
their reset value, log 1; a term with another base, log 14.) -/
def Obligations.AeslComputesTheFinalRound : Prop :=
  ∀ (rd rs rt : Reg) (s : State),
    (groupBase rd = true → groupBase rs = true → groupBase rt = true → s.cap.hasAes = true →
      ∃ t, exec (.aesl rd rs rt) s = .next t ∧
        t = { s with w := t.w, wWritten := t.wWritten, err := .ok } ∧
        (∀ c r, c < 4 → r < 4 →
          byteOf r t.w[rd + Fin.ofNat 8 c] =
            aesSbox (byteOf r s.w[rs + Fin.ofNat 8 ((c + r) % 4)]) ^^^ byteOf r s.w[rt + Fin.ofNat 8 c]) ∧
        (∀ c, c < 4 → t.wWritten[rd + Fin.ofNat 8 c] = true) ∧
        ∀ q : Reg, q ∉ group rd → t.w[q] = s.w[q] ∧ t.wWritten[q] = s.wWritten[q]) ∧
    (groupBase rd = true → groupBase rs = true → groupBase rt = true → s.cap.hasAes = false →
      exec (.aesl rd rs rt) s = .next { s with err := .noCap }) ∧
    ((groupBase rd && groupBase rs && groupBase rt) = false →
      exec (.aesl rd rs rt) s = .next { s with err := .illegalCmd })

/-- R158, R159, R176: the batch data paths of Backends B (two AES states a round for eight lanes) and C compute,
in every lane, block encryption with τ_A; so does Backend A block by block. -/
def Obligations.BatchPathsEqualBlockwiseEncryption : Prop :=
  ∀ (b : Backend) (gather : Bool) (rks : List Word) (blocks : List Quad), blocks.length % 4 = 0 →
    transformBlocks b gather rks blocks = blocks.map (encryptBlock tauA rks)

/-- R129, R133, R192: which backend runs changes no result of ENC 128 or DEC 128, and no error. -/
def Obligations.BackendChangesNoResult : Prop :=
  ∀ (s : State) (b b' : Backend),
    SameOutcome (fun t u => u = { t with bsel := b' })
      (exec (.enc 128) { s with bsel := b }) (exec (.enc 128) { s with bsel := b' }) ∧
    SameOutcome (fun t u => u = { t with bsel := b' })
      (exec (.dec 128) { s with bsel := b }) (exec (.dec 128) { s with bsel := b' })

/-- R190: SELB sets BSEL and reports OK, or NO_CAP for Backend B without the AES unit; nothing else changes. -/
def Obligations.SelbSelectsOrReportsNoCap : Prop :=
  ∀ (b : Backend) (s : State),
    ((b = .aes ∧ s.cap.hasAes = false) → exec (.selb b) s = .next { s with err := .noCap }) ∧
    (¬ (b = .aes ∧ s.cap.hasAes = false) → exec (.selb b) s = .next { s with bsel := b, err := .ok })

/-! ### Frames -/

/-- R21: a command changes no W register but its destinations, and makes none but those written. -/
def Obligations.CommandsKeepOtherRegisters : Prop :=
  ∀ (i : Instr) (s t : State) (r : Reg), exec i s = .next t → r ∉ destinations i →
    t.w[r] = s.w[r] ∧ t.wWritten[r] = s.wWritten[r]

/-- R22, R23, R24: a command changes no byte of the buffers but `DOUT[0 .. len-1]` for ENC and DEC; so no
command writes KEY or DIN. -/
def Obligations.CommandsKeepOtherBytes : Prop :=
  ∀ (i : Instr) (s t : State) (off : Nat), exec i s = .next t → off ∉ bufferWrites i →
    byteAt t.mem off = byteAt s.mem off

/-- R20: CAP, the host's accesses and the values read are changed by no command; BSEL by none but SELB; RK
and KV by none but KEYINIT and KEYREL. -/
def Obligations.CommandsKeepControlState : Prop :=
  ∀ (i : Instr) (s t : State), exec i s = .next t →
    t.cap = s.cap ∧ t.host = s.host ∧ t.returned = s.returned ∧
    ((∀ b, i ≠ .selb b) → t.bsel = s.bsel) ∧
    ((∀ len, i ≠ .keyinit len) → i ≠ .keyrel → t.rk = s.rk ∧ t.kv = s.kv ∧ t.draws = s.draws)

/-! ### Invariants and rules of the whole machine -/

/-- Every step keeps the buffers in canonical form, with bytes of KEY, DIN and DOUT only (R51). -/
def Obligations.StepKeepsMemoryCanonical : Prop :=
  ∀ s t : State, s.memoryCanonical → step s = .next t → t.memoryCanonical

/-- R30, R162: every step keeps "BSEL = 1 only if CAP.AES = 1", and CAP itself never changes (R29). -/
def Obligations.StepKeepsBackendPresent : Prop :=
  ∀ s t : State, s.backendPresent → step s = .next t → t.backendPresent ∧ t.cap = s.cap

/-- R37: every step keeps "while KV = 1, RK is the key schedule of some 16-byte key". -/
def Obligations.StepKeepsKeyScheduled : Prop :=
  ∀ s t : State, s.keyScheduled → step s = .next t → t.keyScheduled

/-- The three invariants hold at reset, whatever the parameters. -/
def Obligations.ResetMeetsTheInvariants : Prop :=
  ∀ p : Config, (State.resetFor p).memoryCanonical ∧ (State.resetFor p).backendPresent ∧
    (State.resetFor p).keyScheduled

/-- R30, R192: BSEL changes only by a successful SELB, to its operand, or by a platform reset. -/
def Obligations.OnlySelbAndResetChangeBsel : Prop :=
  ∀ s t : State, step s = .next t → t.bsel ≠ s.bsel →
    ∃ e rest, s.host = e :: rest ∧
      (e = .reset ∨ ∃ b, issues e (.selb b) ∧ errorOf (.selb b) s = .ok ∧ t.bsel = b)

/-- R25, R26, R37: RK and KV change only by a successful KEYINIT, by KEYREL, or by a platform reset; so a write to
KEY after KEYINIT changes neither. -/
def Obligations.OnlyKeyCommandsAndResetChangeTheKey : Prop :=
  ∀ s t : State, step s = .next t → t.rk ≠ s.rk ∨ t.kv ≠ s.kv →
    ∃ e rest, s.host = e :: rest ∧
      (e = .reset ∨ issues e (.keyinit 16) ∨ issues e .keyrel)

/-- R24, R58: a byte of DOUT changes only by an ENC or DEC that passes its checks, or by a platform reset. -/
def Obligations.OnlyEncDecAndResetChangeDout : Prop :=
  ∀ (s t : State) (off : Nat), step s = .next t → 0x180 ≤ off → byteAt t.mem off ≠ byteAt s.mem off →
    ∃ e rest, s.host = e :: rest ∧
      (e = .reset ∨ ∃ len, (issues e (.enc len) ∧ errorOf (.enc len) s = .ok) ∨
        (issues e (.dec len) ∧ errorOf (.dec len) s = .ok))

/-! ### The host port -/

/-- R52, R53: a step is refused exactly when its event is an access the window does not admit. -/
def Obligations.RefusedExactlyWhenNotAdmitted : Prop :=
  ∀ (s : State) (e : HostEvent) (rest : List HostEvent), s.host = e :: rest →
    ((∃ r, step s = .refused r) ↔ admitted e = false)

/-- R59: a read has no side effect: it hands one value to the host and changes nothing else. -/
def Obligations.ReadsHaveNoSideEffect : Prop :=
  ∀ (s t : State) (off : Nat) (rest : List HostEvent),
    s.host = .rdW off :: rest ∨ s.host = .rdB off :: rest → step s = .next t →
    ∃ v, t = { s with host := rest, returned := s.returned ++ [v] }

/-- R54: a 32-bit write to KEY or DIN at offset o puts byte j of the value at o + j, byte 0 the most
significant, and changes nothing else. -/
def Obligations.WordWriteIsBigEndian : Prop :=
  ∀ (s : State) (off : Nat) (v : Word) (rest : List HostEvent), s.host = .wrW off v :: rest →
    off % 4 = 0 → (0x010 ≤ off ∧ off < 0x020) ∨ (0x100 ≤ off ∧ off < 0x180) →
    ∃ t, step s = .next t ∧ t = { s with host := rest, mem := t.mem } ∧
      (∀ j, j < 4 → byteAt t.mem (off + j) = some (byteOf j v)) ∧
      ∀ a, ¬ (off ≤ a ∧ a < off + 4) → byteAt t.mem a = byteAt s.mem a

/-- R54, R41: a 32-bit read of KEY, DIN or DOUT returns the big-endian word of its four bytes, and is a model
fault if one of them is unwritten. -/
def Obligations.WordReadIsBigEndian : Prop :=
  ∀ (s : State) (off : Nat) (rest : List HostEvent), s.host = .rdW off :: rest → off % 4 = 0 →
    (0x010 ≤ off ∧ off < 0x020) ∨ (0x100 ≤ off ∧ off < 0x200) →
    (∀ byte, Holds s.mem byte off 4 →
      step s = .next { s with host := rest, returned := s.returned ++ [.word (wordFrom byte off)] }) ∧
    ((∃ j, j < 4 ∧ byteAt s.mem (off + j) = none) → ∃ f, step s = .fault f)

/-- R56, R40: an 8-bit write to KEY or DIN changes exactly its byte; an 8-bit read of KEY, DIN or DOUT returns its
byte, and is a model fault if nothing has written it (log 3). -/
def Obligations.ByteAccessesReachOneByte : Prop :=
  (∀ (s : State) (off : Nat) (v : Byte) (rest : List HostEvent), s.host = .wrB off v :: rest →
    (0x010 ≤ off ∧ off < 0x020) ∨ (0x100 ≤ off ∧ off < 0x180) →
    ∃ t, step s = .next t ∧ t = { s with host := rest, mem := t.mem } ∧
      ∀ a, byteAt t.mem a = if a = off then some v else byteAt s.mem a) ∧
  (∀ (s : State) (off : Nat) (b : Byte) (rest : List HostEvent), s.host = .rdB off :: rest →
    (0x010 ≤ off ∧ off < 0x020) ∨ (0x100 ≤ off ∧ off < 0x200) → byteAt s.mem off = some b →
    step s = .next { s with host := rest, returned := s.returned ++ [.byte b] }) ∧
  (∀ (s : State) (off : Nat) (rest : List HostEvent), s.host = .rdB off :: rest →
    (0x010 ≤ off ∧ off < 0x020) ∨ (0x100 ≤ off ∧ off < 0x200) → byteAt s.mem off = none →
    step s = .fault (.unwrittenByte off))

/-- R57: reserved offsets 0x040 to 0x0FF read as zero at either width and ignore writes; the reserved bits of
STATUS, CAP and BSEL are zero. -/
def Obligations.ReservedOffsetsReadZero : Prop :=
  ∀ (s : State) (off : Nat) (rest : List HostEvent), 0x040 ≤ off → off < 0x100 →
    (s.host = .rdB off :: rest →
      step s = .next { s with host := rest, returned := s.returned ++ [.byte 0] }) ∧
    (∀ v, s.host = .wrB off v :: rest → step s = .next { s with host := rest }) ∧
    (off % 4 = 0 → s.host = .rdW off :: rest →
      step s = .next { s with host := rest, returned := s.returned ++ [.word 0] }) ∧
    (∀ v, off % 4 = 0 → s.host = .wrW off v :: rest → step s = .next { s with host := rest }) ∧
    bitField (statusWord s) 31 5 = 0 ∧ bitField (capWord s) 31 2 = 0 ∧ bitField (bselWord s) 31 2 = 0

/-- R58: host writes to STATUS, CAP, BSEL and DOUT are admitted and change no state; CMD reads as 0. -/
def Obligations.ReadOnlyLocationsIgnoreWrites : Prop :=
  ∀ (s : State) (off : Nat) (rest : List HostEvent),
    (∀ v, s.host = .wrW off v :: rest →
      off = 0x004 ∨ off = 0x008 ∨ off = 0x00C ∨ (0x180 ≤ off ∧ off < 0x200 ∧ off % 4 = 0) →
      step s = .next { s with host := rest }) ∧
    (∀ v, s.host = .wrB off v :: rest → 0x180 ≤ off → off < 0x200 → step s = .next { s with host := rest }) ∧
    (s.host = .rdW 0x000 :: rest →
      step s = .next { s with host := rest, returned := s.returned ++ [.word 0] })

/-- R28, R29, R30: what the host reads of STATUS (ERR in [3:0], KV in [4]), CAP (AES in [0], GATHER in [1]) and
BSEL (in [1:0]); every other bit is zero. -/
def Obligations.ControlRegistersRead : Prop :=
  ∀ (s : State) (off : Nat) (rest : List HostEvent), s.host = .rdW off :: rest →
    off = 0x004 ∨ off = 0x008 ∨ off = 0x00C →
    ∃ v : Word, step s = .next { s with host := rest, returned := s.returned ++ [.word v] } ∧
      (off = 0x004 → bitField v 3 0 = errNumber s.err ∧ v.getLsbD 4 = s.kv ∧ bitField v 31 5 = 0) ∧
      (off = 0x008 → v.getLsbD 0 = s.cap.hasAes ∧ v.getLsbD 1 = s.cap.hasGather ∧ bitField v 31 2 = 0) ∧
      (off = 0x00C → bitField v 1 0 = backendNumber s.bsel ∧ bitField v 31 2 = 0)

/-- R21, R51: W[i] is the word at 0x020 + 4i: a host write sets it, marks it written and changes nothing else; a
host read returns it (its reset value if nothing has written it, log 1). -/
def Obligations.HostReachesOperandRegisters : Prop :=
  ∀ (s : State) (i : Reg) (rest : List HostEvent),
    (∀ v, s.host = .wrW (0x020 + 4 * i.val) v :: rest →
      step s = .next { s with host := rest, w := s.w.set i v, wWritten := s.wWritten.set i true }) ∧
    (s.host = .rdW (0x020 + 4 * i.val) :: rest →
      step s = .next { s with host := rest, returned := s.returned ++ [.word s.w[i]] })

/-! ### Isolation -/

/-- R40 and log 1: what W registers hold before they are written, and what RK holds while KV = 0, never matters
to a step that reads no unwritten register: two states that agree on everything else take the same kind of
step, to states that agree again. -/
def Obligations.UnwrittenRegistersNeverMatter : Prop :=
  ∀ s t : State, AgreeOnWritten s t → readsUnwrittenW s = false →
    SameOutcome AgreeOnWritten (step s) (step t)

/-- R25, R110: RK cannot be read back: a step that issues no ENC or DEC does the same whatever RK holds, up to RK
itself. -/
def Obligations.RkIsOpaque : Prop :=
  ∀ (s : State) (rk : Vector Word 32),
    (∀ e rest len, s.host = e :: rest → ¬ issues e (.enc len) ∧ ¬ issues e (.dec len)) →
    SameOutcome (fun t u => u = { t with rk := u.rk }) (step s) (step { s with rk := rk })
end

