-- ==== Sys2Proof/Laws/Bits.lean ====
section
/-! SUPPORT. Bytes and words: taking a word apart and putting it together are inverse to each other, bit by
bit (spec/00_scope.md R8, R9). -/

namespace Sys2Proof.Machine

theorem getLsbD_byteOf (j i : Nat) (x : Word) :
    (byteOf j x).getLsbD i = (decide (i < 8) && x.getLsbD (24 - 8 * j + i)) := by
  simp [byteOf, BitVec.getLsbD_extractLsb']

theorem getLsbD_wordOf (b0 b1 b2 b3 : Byte) (i : Nat) :
    (wordOf b0 b1 b2 b3).getLsbD i =
      if i < 8 then b3.getLsbD i else if i < 16 then b2.getLsbD (i - 8)
      else if i < 24 then b1.getLsbD (i - 16) else b0.getLsbD (i - 24) := by
  unfold wordOf
  simp only [BitVec.getLsbD_append]
  by_cases h0 : i < 8
  · simp [h0]
  by_cases h1 : i < 16
  · simp [h0, h1, show i - 8 < 8 by omega]
  by_cases h2 : i < 24
  · simp [h0, h1, h2, show ¬ i - 8 < 8 by omega, show i - 16 < 8 by omega, Nat.sub_sub]
  · simp [h0, h1, h2, show ¬ i - 8 < 8 by omega, show ¬ i - 16 < 8 by omega, Nat.sub_sub]

@[simp] theorem byteOf_wordOf_0 (b0 b1 b2 b3 : Byte) : byteOf 0 (wordOf b0 b1 b2 b3) = b0 := by
  apply BitVec.eq_of_getLsbD_eq; intro i hi
  rw [getLsbD_byteOf, getLsbD_wordOf, if_neg (by omega), if_neg (by omega), if_neg (by omega)]
  simp [hi]

@[simp] theorem byteOf_wordOf_1 (b0 b1 b2 b3 : Byte) : byteOf 1 (wordOf b0 b1 b2 b3) = b1 := by
  apply BitVec.eq_of_getLsbD_eq; intro i hi
  rw [getLsbD_byteOf, getLsbD_wordOf, if_neg (by omega), if_neg (by omega), if_pos (by omega)]
  simp [hi]

@[simp] theorem byteOf_wordOf_2 (b0 b1 b2 b3 : Byte) : byteOf 2 (wordOf b0 b1 b2 b3) = b2 := by
  apply BitVec.eq_of_getLsbD_eq; intro i hi
  rw [getLsbD_byteOf, getLsbD_wordOf, if_neg (by omega), if_pos (by omega)]
  simp [hi]

@[simp] theorem byteOf_wordOf_3 (b0 b1 b2 b3 : Byte) : byteOf 3 (wordOf b0 b1 b2 b3) = b3 := by
  apply BitVec.eq_of_getLsbD_eq; intro i hi
  rw [getLsbD_byteOf, getLsbD_wordOf, if_pos (by omega)]
  simp [hi]

@[simp] theorem wordOf_byteOf (x : Word) : wordOf (byteOf 0 x) (byteOf 1 x) (byteOf 2 x) (byteOf 3 x) = x := by
  apply BitVec.eq_of_getLsbD_eq; intro i hi
  simp only [getLsbD_wordOf, getLsbD_byteOf]
  split
  · simp [*]
  · split
    · simp [show i - 8 < 8 by omega, show 8 + (i - 8) = i by omega]
    · split
      · simp [show i - 16 < 8 by omega, show 16 + (i - 16) = i by omega]
      · simp [show i - 24 < 8 by omega, show 24 + (i - 24) = i by omega]

/-- `rotl32(x, n)`: bit i of the result is bit (i - n) mod 32 of x (R9). -/
theorem getLsbD_rotl32 (x : Word) {n i : Nat} (h : 0 < n ∧ n < 32) (hi : i < 32) :
    (rotl32 x n).getLsbD i = x.getLsbD ((i + 32 - n) % 32) := by
  simp only [rotl32, BitVec.getLsbD_or, BitVec.getLsbD_shiftLeft, BitVec.getLsbD_ushiftRight, hi]
  by_cases hn : i < n
  · simp [hn, show (i + 32 - n) % 32 = 32 - n + i by omega]
  · simp [hn, show (i + 32 - n) % 32 = i - n by omega, BitVec.getLsbD_of_ge x (32 - n + i) (by omega)]

/-- Bytewise substitution keeps the places of the bytes (R142). -/
theorem onBytes_congr {f g : Byte → Byte} (h : ∀ b, f b = g b) (x : Word) : onBytes f x = onBytes g x := by
  simp [onBytes, h]

end Sys2Proof.Machine
end

