-- ==== Sys2Proof/Laws/State.lean ====
section
/-! SUPPORT. What each named update of State does to each field: true by rfl, for simp. -/

namespace Sys2Proof.Machine

/-! ### writeW -/

@[simp] theorem writeW_w (s : State) (r : Reg) (v : Word) : (writeW s r v).w = s.w.set r v := rfl

@[simp] theorem writeW_wWritten (s : State) (r : Reg) (v : Word) : (writeW s r v).wWritten = s.wWritten.set r true := rfl

@[simp] theorem writeW_mem (s : State) (r : Reg) (v : Word) : (writeW s r v).mem = s.mem := rfl

@[simp] theorem writeW_rk (s : State) (r : Reg) (v : Word) : (writeW s r v).rk = s.rk := rfl

@[simp] theorem writeW_kv (s : State) (r : Reg) (v : Word) : (writeW s r v).kv = s.kv := rfl

@[simp] theorem writeW_err (s : State) (r : Reg) (v : Word) : (writeW s r v).err = s.err := rfl

@[simp] theorem writeW_bsel (s : State) (r : Reg) (v : Word) : (writeW s r v).bsel = s.bsel := rfl

@[simp] theorem writeW_cap (s : State) (r : Reg) (v : Word) : (writeW s r v).cap = s.cap := rfl

@[simp] theorem writeW_host (s : State) (r : Reg) (v : Word) : (writeW s r v).host = s.host := rfl

@[simp] theorem writeW_returned (s : State) (r : Reg) (v : Word) : (writeW s r v).returned = s.returned := rfl

@[simp] theorem writeW_draws (s : State) (r : Reg) (v : Word) : (writeW s r v).draws = s.draws := rfl

/-! ### writeWQuad -/

@[simp] theorem writeWQuad_mem (s : State) (b : Reg) (q : Quad) : (writeWQuad s b q).mem = s.mem := rfl

@[simp] theorem writeWQuad_rk (s : State) (b : Reg) (q : Quad) : (writeWQuad s b q).rk = s.rk := rfl

@[simp] theorem writeWQuad_kv (s : State) (b : Reg) (q : Quad) : (writeWQuad s b q).kv = s.kv := rfl

@[simp] theorem writeWQuad_err (s : State) (b : Reg) (q : Quad) : (writeWQuad s b q).err = s.err := rfl

@[simp] theorem writeWQuad_bsel (s : State) (b : Reg) (q : Quad) : (writeWQuad s b q).bsel = s.bsel := rfl

@[simp] theorem writeWQuad_cap (s : State) (b : Reg) (q : Quad) : (writeWQuad s b q).cap = s.cap := rfl

@[simp] theorem writeWQuad_host (s : State) (b : Reg) (q : Quad) : (writeWQuad s b q).host = s.host := rfl

@[simp] theorem writeWQuad_returned (s : State) (b : Reg) (q : Quad) : (writeWQuad s b q).returned = s.returned := rfl

@[simp] theorem writeWQuad_draws (s : State) (b : Reg) (q : Quad) : (writeWQuad s b q).draws = s.draws := rfl

/-! ### State.resetFor -/

@[simp] theorem resetFor_w (p : Config) : (State.resetFor p).w = Vector.replicate 8 0 := rfl

@[simp] theorem resetFor_wWritten (p : Config) : (State.resetFor p).wWritten = Vector.replicate 8 false := rfl

@[simp] theorem resetFor_mem (p : Config) : (State.resetFor p).mem = [] := rfl

@[simp] theorem resetFor_rk (p : Config) : (State.resetFor p).rk = Vector.replicate 32 0 := rfl

@[simp] theorem resetFor_kv (p : Config) : (State.resetFor p).kv = false := rfl

@[simp] theorem resetFor_err (p : Config) : (State.resetFor p).err = .ok := rfl

@[simp] theorem resetFor_bsel (p : Config) : (State.resetFor p).bsel = .table := rfl

@[simp] theorem resetFor_cap (p : Config) : (State.resetFor p).cap = p := rfl

@[simp] theorem resetFor_host (p : Config) : (State.resetFor p).host = [] := rfl

@[simp] theorem resetFor_returned (p : Config) : (State.resetFor p).returned = [] := rfl

@[simp] theorem resetFor_draws (p : Config) : (State.resetFor p).draws = 0 := rfl

/-! ### platformReset -/

@[simp] theorem platformReset_w (s : State) : (platformReset s).w = Vector.replicate 8 0 := rfl

@[simp] theorem platformReset_wWritten (s : State) : (platformReset s).wWritten = Vector.replicate 8 false := rfl

@[simp] theorem platformReset_mem (s : State) : (platformReset s).mem = [] := rfl

@[simp] theorem platformReset_rk (s : State) : (platformReset s).rk = Vector.replicate 32 0 := rfl

@[simp] theorem platformReset_kv (s : State) : (platformReset s).kv = false := rfl

@[simp] theorem platformReset_err (s : State) : (platformReset s).err = .ok := rfl

@[simp] theorem platformReset_bsel (s : State) : (platformReset s).bsel = .table := rfl

@[simp] theorem platformReset_cap (s : State) : (platformReset s).cap = s.cap := rfl

@[simp] theorem platformReset_host (s : State) : (platformReset s).host = s.host := rfl

@[simp] theorem platformReset_returned (s : State) : (platformReset s).returned = s.returned := rfl

@[simp] theorem platformReset_draws (s : State) : (platformReset s).draws = s.draws := rfl

/-! ### State.withFetchWord -/

@[simp] theorem withFetchWord_w (s : State) (nbits n : Nat) : (s.withFetchWord nbits n).w = s.w := rfl

@[simp] theorem withFetchWord_wWritten (s : State) (nbits n : Nat) : (s.withFetchWord nbits n).wWritten = s.wWritten := rfl

@[simp] theorem withFetchWord_mem (s : State) (nbits n : Nat) : (s.withFetchWord nbits n).mem = s.mem := rfl

@[simp] theorem withFetchWord_rk (s : State) (nbits n : Nat) : (s.withFetchWord nbits n).rk = s.rk := rfl

@[simp] theorem withFetchWord_kv (s : State) (nbits n : Nat) : (s.withFetchWord nbits n).kv = s.kv := rfl

@[simp] theorem withFetchWord_err (s : State) (nbits n : Nat) : (s.withFetchWord nbits n).err = s.err := rfl

@[simp] theorem withFetchWord_bsel (s : State) (nbits n : Nat) : (s.withFetchWord nbits n).bsel = s.bsel := rfl

@[simp] theorem withFetchWord_cap (s : State) (nbits n : Nat) : (s.withFetchWord nbits n).cap = s.cap := rfl

@[simp] theorem withFetchWord_host (s : State) (nbits n : Nat) : (s.withFetchWord nbits n).host = .wrW 0x000 (BitVec.ofNat 32 (n % 2 ^ nbits)) :: s.host := rfl

@[simp] theorem withFetchWord_returned (s : State) (nbits n : Nat) : (s.withFetchWord nbits n).returned = s.returned := rfl

@[simp] theorem withFetchWord_draws (s : State) (nbits n : Nat) : (s.withFetchWord nbits n).draws = s.draws := rfl

end Sys2Proof.Machine
end

