-- ==== Sys2Proof/Laws/Outcome.lean ====
section
/-! SUPPORT. Everything the shared ends of a command can do. -/

namespace Sys2Proof.Machine

theorem failWith_eq_next_iff {c : ErrCode} {s t : State} :
    failWith c s = .next t ↔ t = { s with err := c } := by
  simp [failWith, eq_comm]

theorem succeed_eq_next_iff {s t : State} : succeed s = .next t ↔ t = { s with err := .ok } := by
  simp [succeed, eq_comm]

@[simp] theorem failWith_ne_fault (c : ErrCode) (s : State) (f : Fault) : failWith c s ≠ .fault f := by
  simp [failWith]

@[simp] theorem succeed_ne_fault (s : State) (f : Fault) : succeed s ≠ .fault f := by simp [succeed]

@[simp] theorem failWith_ne_refused (c : ErrCode) (s : State) (e : Refusal) : failWith c s ≠ .refused e := by
  simp [failWith]

@[simp] theorem succeed_ne_refused (s : State) (e : Refusal) : succeed s ≠ .refused e := by simp [succeed]

@[simp] theorem withRead_ok (v : α) (k : α → Result) : withRead (.ok v) k = k v := rfl

@[simp] theorem withRead_error (f : Fault) (k : α → Result) : withRead (.error f) k = .fault f := rfl

theorem withRead_eq_next_iff {r : Except Fault α} {k : α → Result} {t : State} :
    withRead r k = .next t ↔ ∃ v, r = .ok v ∧ k v = .next t := by
  cases r <;> simp

theorem withRead_eq_fault_iff {r : Except Fault α} {k : α → Result} {f : Fault} :
    withRead r k = .fault f ↔ r = .error f ∨ ∃ v, r = .ok v ∧ k v = .fault f := by
  cases r <;> simp

theorem withRead_eq_refused_iff {r : Except Fault α} {k : α → Result} {e : Refusal} :
    withRead r k = .refused e ↔ ∃ v, r = .ok v ∧ k v = .refused e := by
  cases r <;> simp

theorem unaryCommand_eq (f : Word → Word) (rd rs : Reg) (s : State) :
    unaryCommand f rd rs s = .next { writeW s rd (f (readW s rs)) with err := .ok } := rfl

/-- Everything ENC and DEC can do (R126, R127): one of the two errors, the fault of a read, or the blocks. -/
theorem cipherCommand_cases (rks : List Word) (len : Fin 256) (s : State) :
    (legalLength len s.bsel = false ∧ cipherCommand rks len s = failWith .badLength s) ∨
    (legalLength len s.bsel = true ∧ s.kv = false ∧ cipherCommand rks len s = failWith .noKey s) ∨
    (legalLength len s.bsel = true ∧ s.kv = true ∧
      ((∃ f, readQuads s.mem dinBase (len.val / 16) = .error f ∧ cipherCommand rks len s = .fault f) ∨
       ∃ blocks, readQuads s.mem dinBase (len.val / 16) = .ok blocks ∧
        cipherCommand rks len s = .next { s with
          mem := writeQuads s.mem doutBase (transformBlocks s.bsel s.cap.hasGather rks blocks), err := .ok })) := by
  unfold cipherCommand
  cases hl : legalLength len s.bsel <;> cases hk : s.kv <;> simp
  cases hr : readQuads s.mem dinBase (len.val / 16) <;> simp [succeed]

@[simp] theorem withAdmitted_ok (r : Region) (k : Region → Result) : withAdmitted (.ok r) k = k r := rfl

@[simp] theorem withAdmitted_error (e : Refusal) (k : Region → Result) :
    withAdmitted (.error e) k = .refused e := rfl

end Sys2Proof.Machine
end

