-- ==== Sys2Proof/Laws/Memory.lean ====
section
/-! SUPPORT. The buffers: a read after a write, what a write leaves alone, and that every write keeps the
canonical form. -/

namespace Sys2Proof.Machine

@[simp] theorem byteAt_nil (off : Nat) : byteAt [] off = none := rfl

theorem byteAt_cons (c : Host.Cell) (m : Memory) (off : Nat) :
    byteAt (c :: m) off = if c.1 = off then some c.2 else byteAt m off := rfl

@[simp] theorem byteAt_setByte_same (m : Memory) (off : Nat) (v : Byte) :
    byteAt (setByte m off v) off = some v := by
  induction m with
  | nil => simp [setByte, byteAt]
  | cons c m ih =>
    simp only [setByte]
    split
    · simp [byteAt]
    · split
      · simp [byteAt]
      · rename_i h
        simp [byteAt_cons, ih, Ne.symm h]

theorem byteAt_setByte_ne (m : Memory) {a off : Nat} (v : Byte) (h : a ≠ off) :
    byteAt (setByte m a v) off = byteAt m off := by
  induction m with
  | nil => simp [setByte, byteAt_cons, h]
  | cons c m ih =>
    simp only [setByte]
    split
    · simp [byteAt_cons, h]
    · split
      · rename_i hc
        simp [byteAt_cons, ← hc, h]
      · simp [byteAt_cons, ih]

/-- A byte read after one byte's write (R56). -/
theorem byteAt_setByte (m : Memory) (a off : Nat) (v : Byte) :
    byteAt (setByte m a v) off = if a = off then some v else byteAt m off := by
  split
  · subst_vars; simp
  · exact byteAt_setByte_ne m v ‹_›

/-- A byte read after a word's write (R54). -/
theorem byteAt_writeWord (m : Memory) (a off : Nat) (v : Word) :
    byteAt (writeWord m a v) off =
      if a ≤ off ∧ off < a + 4 then some (byteOf (off - a) v) else byteAt m off := by
  simp only [writeWord, byteAt_setByte]
  by_cases h : a ≤ off ∧ off < a + 4
  · obtain ⟨k, rfl, hk⟩ : ∃ k, off = a + k ∧ k < 4 := ⟨off - a, by omega, by omega⟩
    have : k = 0 ∨ k = 1 ∨ k = 2 ∨ k = 3 := by omega
    rcases this with rfl | rfl | rfl | rfl <;> simp
  · have h0 : a ≠ off := by omega
    have h1 : a + 1 ≠ off := by omega
    have h2 : a + 2 ≠ off := by omega
    have h3 : a + 3 ≠ off := by omega
    simp [h, h0, h1, h2, h3]

/-- A byte read after a block's write (R55). -/
theorem byteAt_writeQuad (m : Memory) (a off : Nat) (q : Quad) :
    byteAt (writeQuad m a q) off =
      if a ≤ off ∧ off < a + 16 then some (byteOf ((off - a) % 4) (quadWord q ((off - a) / 4)))
      else byteAt m off := by
  simp only [writeQuad, byteAt_writeWord]
  by_cases h : a ≤ off ∧ off < a + 16
  · obtain ⟨k, rfl, hk⟩ : ∃ k, off = a + k ∧ k < 16 := ⟨off - a, by omega, by omega⟩
    rw [if_pos h]
    have h4 : k / 4 = 0 ∨ k / 4 = 1 ∨ k / 4 = 2 ∨ k / 4 = 3 := by omega
    rcases h4 with h4 | h4 | h4 | h4
    · rw [if_neg (by omega), if_neg (by omega), if_neg (by omega), if_pos (by omega)]
      simp only [quadWord, Nat.add_sub_cancel_left, h4, if_pos]
      congr 2; omega
    · rw [if_neg (by omega), if_neg (by omega), if_pos (by omega)]
      simp only [quadWord, Nat.add_sub_cancel_left, h4]
      congr 2; omega
    · rw [if_neg (by omega), if_pos (by omega)]
      simp only [quadWord, Nat.add_sub_cancel_left, h4]
      congr 2; omega
    · rw [if_pos (by omega)]
      simp only [quadWord, Nat.add_sub_cancel_left, h4]
      congr 2; omega
  · rw [if_neg (by omega), if_neg (by omega), if_neg (by omega), if_neg (by omega), if_neg h]

/-- A byte read after a run of blocks (R126): byte `j` of the run is byte `j % 16` of block `j / 16`. -/
theorem byteAt_writeQuads (qs : List Quad) (m : Memory) (a off : Nat) :
    byteAt (writeQuads m a qs) off =
      if h : a ≤ off ∧ off < a + 16 * qs.length then
        some (byteOf ((off - a) % 4)
          (quadWord (qs[(off - a) / 16]'(by omega)) ((off - a) % 16 / 4)))
      else byteAt m off := by
  induction qs generalizing m a with
  | nil => simp [writeQuads]
  | cons q qs ih =>
    simp only [writeQuads, ih, byteAt_writeQuad, List.length_cons]
    by_cases h1 : a + 16 ≤ off ∧ off < a + 16 + 16 * qs.length
    · rw [dif_pos h1, dif_pos (by omega)]
      have e1 : (off - (a + 16)) % 4 = (off - a) % 4 := by omega
      have e2 : (off - a) / 16 = (off - (a + 16)) / 16 + 1 := by omega
      have e3 : (off - (a + 16)) % 16 = (off - a) % 16 := by omega
      simp only [e1, e2, e3, List.getElem_cons_succ]
    · rw [dif_neg h1]
      by_cases h2 : a ≤ off ∧ off < a + 16
      · rw [if_pos h2, dif_pos (by omega)]
        have e2 : (off - a) / 16 = 0 := by omega
        have e3 : (off - a) % 16 = off - a := by omega
        simp only [e2, e3, List.getElem_cons_zero]
      · rw [if_neg h2, dif_neg (by omega)]

/-! ### The canonical form -/

theorem mem_setByte {m : Memory} {off : Nat} {v : Byte} {c : Host.Cell} (h : c ∈ setByte m off v) :
    c.1 = off ∨ c ∈ m := by
  induction m with
  | nil => simp [setByte] at h; simp [h]
  | cons d m ih =>
    simp only [setByte] at h
    split at h
    · rcases List.mem_cons.1 h with rfl | h'
      · exact .inl rfl
      · exact .inr h'
    · split at h
      · rcases List.mem_cons.1 h with rfl | h'
        · exact .inl rfl
        · exact .inr (List.mem_cons_of_mem _ h')
      · rcases List.mem_cons.1 h with rfl | h'
        · exact .inr List.mem_cons_self
        · rcases ih h' with h'' | h''
          · exact .inl h''
          · exact .inr (List.mem_cons_of_mem _ h'')

theorem setByte_wf {m : Memory} (hm : Memory.wf m) (off : Nat) (v : Byte) : Memory.wf (setByte m off v) := by
  induction m with
  | nil => simp [setByte, Memory.wf]
  | cons c m ih =>
    have hc := List.pairwise_cons.1 hm
    simp only [setByte]
    split
    · rename_i hlt
      refine List.pairwise_cons.2 ⟨fun d hd => ?_, hm⟩
      rcases List.mem_cons.1 hd with rfl | hd'
      · exact hlt
      · exact Nat.lt_trans hlt (hc.1 d hd')
    · split
      · rename_i heq
        exact List.pairwise_cons.2 ⟨fun d hd => heq ▸ hc.1 d hd, hc.2⟩
      · rename_i hlt hne
        refine List.pairwise_cons.2 ⟨fun d hd => ?_, ih hc.2⟩
        rcases mem_setByte hd with rfl | hd'
        · show c.1 < d.1
          have h1 : ¬ d.1 < c.1 := hlt
          have h2 : ¬ d.1 = c.1 := hne
          omega
        · exact hc.1 d hd'

theorem writeWord_wf {m : Memory} (hm : Memory.wf m) (off : Nat) (v : Word) : Memory.wf (writeWord m off v) :=
  setByte_wf (setByte_wf (setByte_wf (setByte_wf hm _ _) _ _) _ _) _ _

theorem writeQuad_wf {m : Memory} (hm : Memory.wf m) (off : Nat) (q : Quad) : Memory.wf (writeQuad m off q) :=
  writeWord_wf (writeWord_wf (writeWord_wf (writeWord_wf hm _ _) _ _) _ _) _ _

theorem writeQuads_wf {m : Memory} (hm : Memory.wf m) (off : Nat) (qs : List Quad) :
    Memory.wf (writeQuads m off qs) := by
  induction qs generalizing m off with
  | nil => exact hm
  | cons q qs ih => exact ih (writeQuad_wf hm off q) _

theorem reset_mem_wf (p : Config) : Memory.wf (State.resetFor p).mem := List.Pairwise.nil

/-- A byte is listed exactly where a read finds one. -/
theorem exists_mem_iff_byteAt (m : Memory) (off : Nat) : (∃ c ∈ m, c.1 = off) ↔ byteAt m off ≠ none := by
  induction m with
  | nil => simp
  | cons c m ih =>
    rw [byteAt_cons]
    split
    · simp_all
    · simp_all

/-! ### Reads -/

theorem readByte_eq_ok_iff {m : Memory} {off : Nat} {b : Byte} :
    readByte m off = .ok b ↔ byteAt m off = some b := by
  unfold readByte; cases byteAt m off <;> simp

theorem readByte_eq_error_iff {m : Memory} {off : Nat} {f : Fault} :
    readByte m off = .error f ↔ byteAt m off = none ∧ f = .unwrittenByte off := by
  unfold readByte; cases byteAt m off <;> simp [eq_comm]

/-- A word read answers the big-endian word of four written bytes (R54) ... -/
theorem readWord_ok {m : Memory} {off : Nat} {b0 b1 b2 b3 : Byte} (h0 : byteAt m off = some b0)
    (h1 : byteAt m (off + 1) = some b1) (h2 : byteAt m (off + 2) = some b2) (h3 : byteAt m (off + 3) = some b3) :
    readWord m off = .ok (wordOf b0 b1 b2 b3) := by
  simp [readWord, readByte, h0, h1, h2, h3, bind, Except.bind, pure, Except.pure]

/-- ... or the fault of the lowest unwritten one (R41). -/
theorem readWord_cases (m : Memory) (off : Nat) :
    (∃ b0 b1 b2 b3, byteAt m off = some b0 ∧ byteAt m (off + 1) = some b1 ∧ byteAt m (off + 2) = some b2 ∧
      byteAt m (off + 3) = some b3 ∧ readWord m off = .ok (wordOf b0 b1 b2 b3)) ∨
    (∃ k, k < 4 ∧ byteAt m (off + k) = none ∧ readWord m off = .error (.unwrittenByte (off + k))) := by
  rcases h0 : byteAt m off with _ | b0
  · exact .inr ⟨0, by omega, h0, by simp [readWord, readByte, h0, bind, Except.bind]⟩
  rcases h1 : byteAt m (off + 1) with _ | b1
  · exact .inr ⟨1, by omega, h1, by simp [readWord, readByte, h0, h1, bind, Except.bind]⟩
  rcases h2 : byteAt m (off + 2) with _ | b2
  · exact .inr ⟨2, by omega, h2, by simp [readWord, readByte, h0, h1, h2, bind, Except.bind]⟩
  rcases h3 : byteAt m (off + 3) with _ | b3
  · exact .inr ⟨3, by omega, h3, by simp [readWord, readByte, h0, h1, h2, h3, bind, Except.bind]⟩
  exact .inl ⟨b0, b1, b2, b3, rfl, rfl, rfl, rfl, readWord_ok h0 h1 h2 h3⟩

theorem readWord_of_written {m : Memory} {byte : Nat → Byte} {off : Nat}
    (h : ∀ k, k < 4 → byteAt m (off + k) = some (byte (off + k))) :
    readWord m off = .ok (wordFrom byte off) :=
  readWord_ok (h 0 (by omega)) (h 1 (by omega)) (h 2 (by omega)) (h 3 (by omega))

theorem readQuad_of_written {m : Memory} {byte : Nat → Byte} {off : Nat}
    (h : ∀ k, k < 16 → byteAt m (off + k) = some (byte (off + k))) :
    readQuad m off = .ok (quadFrom byte off) := by
  have h0 : readWord m off = _ := readWord_of_written fun k hk => h k (by omega)
  have h1 : readWord m (off + 4) = _ := readWord_of_written fun k hk => by
    simpa [Nat.add_assoc] using h (4 + k) (by omega)
  have h2 : readWord m (off + 8) = _ := readWord_of_written fun k hk => by
    simpa [Nat.add_assoc] using h (8 + k) (by omega)
  have h3 : readWord m (off + 12) = _ := readWord_of_written fun k hk => by
    simpa [Nat.add_assoc] using h (12 + k) (by omega)
  simp [readQuad, h0, h1, h2, h3, bind, Except.bind, pure, Except.pure, quadFrom]

/-- Blocks whose bytes are all written are read (R126). -/
theorem readQuads_of_written {m : Memory} {byte : Nat → Byte} (n off : Nat)
    (h : ∀ k, k < 16 * n → byteAt m (off + k) = some (byte (off + k))) :
    readQuads m off n = .ok ((List.range n).map fun k => quadFrom byte (off + 16 * k)) := by
  induction n generalizing off with
  | zero => rfl
  | succ n ih =>
    have h0 := readQuad_of_written (m := m) (byte := byte) (off := off) fun k hk => h k (by omega)
    have h1 := ih (off + 16) fun k hk => by
      simpa [Nat.add_assoc] using h (16 + k) (by omega)
    simp only [readQuads, h0, h1, bind, Except.bind, pure, Except.pure, List.range_succ_eq_map, List.map_cons,
      List.map_map]
    congr 3
    funext k
    simp only [Function.comp, Nat.succ_eq_add_one]
    congr 1
    omega

theorem readWord_written {m : Memory} {off : Nat} {v : Word} (h : readWord m off = .ok v) {k : Nat} (hk : k < 4) :
    byteAt m (off + k) ≠ none := by
  rcases readWord_cases m off with ⟨b0, b1, b2, b3, h0, h1, h2, h3, _⟩ | ⟨j, _, _, e⟩
  · have : k = 0 ∨ k = 1 ∨ k = 2 ∨ k = 3 := by omega
    rcases this with rfl | rfl | rfl | rfl
    · rw [Nat.add_zero, h0]; exact Option.some_ne_none _
    · rw [h1]; exact Option.some_ne_none _
    · rw [h2]; exact Option.some_ne_none _
    · rw [h3]; exact Option.some_ne_none _
  · rw [e] at h; cases h

/-- A read of a block that answers found all its bytes written. -/
theorem readQuad_written {m : Memory} {off : Nat} {q : Quad} (h : readQuad m off = .ok q) {k : Nat} (hk : k < 16) :
    byteAt m (off + k) ≠ none := by
  unfold readQuad at h
  rcases e0 : readWord m off with f | x0
  · simp [e0, bind, Except.bind] at h
  rcases e1 : readWord m (off + 4) with f | x1
  · simp [e0, e1, bind, Except.bind] at h
  rcases e2 : readWord m (off + 8) with f | x2
  · simp [e0, e1, e2, bind, Except.bind] at h
  rcases e3 : readWord m (off + 12) with f | x3
  · simp [e0, e1, e2, e3, bind, Except.bind] at h
  by_cases h4 : k < 4
  · exact readWord_written e0 h4
  by_cases h8 : k < 8
  · have := readWord_written (k := k - 4) e1 (by omega)
    rwa [show off + 4 + (k - 4) = off + k by omega] at this
  by_cases h12 : k < 12
  · have := readWord_written (k := k - 8) e2 (by omega)
    rwa [show off + 8 + (k - 8) = off + k by omega] at this
  · have := readWord_written (k := k - 12) e3 (by omega)
    rwa [show off + 12 + (k - 12) = off + k by omega] at this

/-- A read of blocks that answers found all their bytes written. -/
theorem readQuads_written {m : Memory} {off n : Nat} {qs : List Quad} (h : readQuads m off n = .ok qs) {k : Nat}
    (hk : k < 16 * n) : byteAt m (off + k) ≠ none := by
  induction n generalizing off qs k with
  | zero => omega
  | succ n ih =>
    simp only [readQuads, bind, Except.bind] at h
    split at h
    · cases h
    · rename_i q hq
      split at h
      · cases h
      · rename_i rest hrest
        by_cases h16 : k < 16
        · exact readQuad_written hq h16
        · have := ih hrest (k := k - 16) (by omega)
          rwa [show off + 16 + (k - 16) = off + k by omega] at this

theorem readQuad_error {m : Memory} {off : Nat} {f : Fault} (h : readQuad m off = .error f) :
    ∃ k, k < 16 ∧ byteAt m (off + k) = none ∧ f = .unwrittenByte (off + k) := by
  unfold readQuad at h
  rcases readWord_cases m off with ⟨_, _, _, _, _, _, _, _, e0⟩ | ⟨k, hk, hn, e0⟩
  swap
  · simp [e0, bind, Except.bind] at h
    exact ⟨k, by omega, hn, h.symm⟩
  rcases readWord_cases m (off + 4) with ⟨_, _, _, _, _, _, _, _, e1⟩ | ⟨k, hk, hn, e1⟩
  swap
  · simp [e0, e1, bind, Except.bind] at h
    exact ⟨4 + k, by omega, by rwa [← Nat.add_assoc], by rw [← Nat.add_assoc]; exact h.symm⟩
  rcases readWord_cases m (off + 8) with ⟨_, _, _, _, _, _, _, _, e2⟩ | ⟨k, hk, hn, e2⟩
  swap
  · simp [e0, e1, e2, bind, Except.bind] at h
    exact ⟨8 + k, by omega, by rwa [← Nat.add_assoc], by rw [← Nat.add_assoc]; exact h.symm⟩
  rcases readWord_cases m (off + 12) with ⟨_, _, _, _, _, _, _, _, e3⟩ | ⟨k, hk, hn, e3⟩
  swap
  · simp [e0, e1, e2, e3, bind, Except.bind] at h
    exact ⟨12 + k, by omega, by rwa [← Nat.add_assoc], by rw [← Nat.add_assoc]; exact h.symm⟩
  simp [e0, e1, e2, e3, bind, Except.bind, pure, Except.pure] at h

/-- A failed read of blocks names an unwritten byte of theirs (R40). -/
theorem readQuads_error {m : Memory} {f : Fault} (n off : Nat) (h : readQuads m off n = .error f) :
    ∃ k, k < 16 * n ∧ byteAt m (off + k) = none ∧ f = .unwrittenByte (off + k) := by
  induction n generalizing off with
  | zero => simp [readQuads, pure, Except.pure] at h
  | succ n ih =>
    simp only [readQuads, bind, Except.bind] at h
    split at h
    · rename_i e he
      cases h
      obtain ⟨k, hk, hn, hf⟩ := readQuad_error he
      exact ⟨k, by omega, hn, hf⟩
    · split at h
      · rename_i e he
        cases h
        obtain ⟨k, hk, hn, hf⟩ := ih (off + 16) he
        exact ⟨16 + k, by omega, by rwa [← Nat.add_assoc], by rwa [← Nat.add_assoc]⟩
      · simp [pure, Except.pure] at h

/-- The byte at an offset, 0 where none is written: for reads already known to find one. -/
def byteOrZero (m : Memory) (off : Nat) : Byte := (byteAt m off).getD 0

theorem byteAt_of_ne_none {m : Memory} {off : Nat} (h : byteAt m off ≠ none) :
    byteAt m off = some (byteOrZero m off) := by
  unfold byteOrZero
  rcases hb : byteAt m off with _ | b
  · exact absurd hb h
  · rfl

/-- Everything a read of blocks can do: all its bytes are written and it answers them, or it names one that
is not (R40, R41). -/
theorem readQuads_cases (m : Memory) (off n : Nat) :
    ((∀ k, k < 16 * n → byteAt m (off + k) ≠ none) ∧
      readQuads m off n = .ok ((List.range n).map fun k => quadFrom (byteOrZero m) (off + 16 * k))) ∨
    ∃ k, k < 16 * n ∧ byteAt m (off + k) = none ∧ readQuads m off n = .error (.unwrittenByte (off + k)) := by
  by_cases h : ∀ k, k < 16 * n → byteAt m (off + k) ≠ none
  · exact .inl ⟨h, readQuads_of_written n off fun k hk => byteAt_of_ne_none (h k hk)⟩
  · rcases hr : readQuads m off n with f | qs
    · obtain ⟨k, hk, hn, rfl⟩ := readQuads_error n off hr
      exact .inr ⟨k, hk, hn, rfl⟩
    · exact absurd (fun k hk => readQuads_written hr hk) h

/-- Everything a read of one block can do. -/
theorem readQuad_cases (m : Memory) (off : Nat) :
    ((∀ k, k < 16 → byteAt m (off + k) ≠ none) ∧ readQuad m off = .ok (quadFrom (byteOrZero m) off)) ∨
    ∃ k, k < 16 ∧ byteAt m (off + k) = none ∧ readQuad m off = .error (.unwrittenByte (off + k)) := by
  by_cases h : ∀ k, k < 16 → byteAt m (off + k) ≠ none
  · exact .inl ⟨h, readQuad_of_written fun k hk => byteAt_of_ne_none (h k hk)⟩
  · rcases hr : readQuad m off with f | q
    · obtain ⟨k, hk, hn, rfl⟩ := readQuad_error hr
      exact .inr ⟨k, hk, hn, rfl⟩
    · exact absurd (fun k hk => readQuad_written hr hk) h

end Sys2Proof.Machine
end

