-- ==== Sys2Proof/Laws/Commands.lean ====
section
/-! SUPPORT. Everything a command that passes its checks can do: complete with the state its rule names, or
fault on an unwritten byte it reads (spec/60_exceptions.md R200, R209). -/

namespace Sys2Proof.Machine

/-- The lengths ENC and DEC accept are the ones R125 lists. -/
theorem legalLength_eq_accepted (len : Fin 256) (b : Backend) :
    legalLength len b = (acceptedLengths b).contains len.val := by
  cases b <;> revert len <;> decide +kernel

/-- Accepted lengths are whole blocks. -/
theorem accepted_is_whole_blocks {len : Fin 256} {b : Backend} (h : (acceptedLengths b).contains len.val = true) :
    16 * (len.val / 16) = len.val := by
  revert h; cases b <;> revert len <;> decide +kernel

/-- The blocks at `DIN[0 .. len-1]`. -/
def dinBlocks (s : State) (len : Nat) : List Quad :=
  (List.range (len / 16)).map fun k => quadFrom (byteOrZero s.mem) (dinBase + 16 * k)

/-- The state a command leaves when it succeeds. -/
def okResult (i : Instr) (s : State) : State :=
  match i with
  | .keyinit _ => { s with rk := keySchedule (quadFrom (byteOrZero s.mem) keyBase), kv := true, err := .ok }
  | .keyrel =>
    if s.kv then
      { s with kv := false, rk := Vector.ofFn (Config.releasedSubkey s.draws), draws := s.draws + 1, err := .ok }
    else { s with err := .ok }
  | .selb b => { s with bsel := b, err := .ok }
  | .enc len => { s with
      mem := writeQuads s.mem doutBase
        (transformBlocks s.bsel s.cap.hasGather s.rk.toList (dinBlocks s len.val)), err := .ok }
  | .dec len => { s with
      mem := writeQuads s.mem doutBase
        (transformBlocks s.bsel s.cap.hasGather s.rk.toList.reverse (dinBlocks s len.val)), err := .ok }
  | .suba rd rs => { writeW s rd (tauA (readW s rs)) with err := .ok }
  | .subb rd rs => { writeW s rd (tauB (readW s rs)) with err := .ok }
  | .subc rd rs => { writeW s rd (tauC s.cap.hasGather (readW s rs)) with err := .ok }
  | .lin rd rs => { writeW s rd (lin (readW s rs)) with err := .ok }
  | .link rd rs => { writeW s rd (linK (readW s rs)) with err := .ok }
  | .rnd rd rs rt => { writeW s rd (roundF tauA (readWQuad s rs) (readW s rt)) with err := .ok }
  | .krnd rd rs i => { writeW s rd (keyRound (readWQuad s rs) (ck i)) with err := .ok }
  | .aesl rd rs rt =>
    { writeWQuad s rd (quadOfAes (aesEncLast (aesStateOf (readWQuad s rs)) (aesStateOf (readWQuad s rt)))) with
      err := .ok }

/-- ENC and DEC with an accepted length and a key: the blocks, or the fault of an unwritten byte of DIN. -/
theorem cipherCommand_ok_cases (rks : List Word) {len : Fin 256} {s : State}
    (hl : (acceptedLengths s.bsel).contains len.val = true) (hk : s.kv = true) :
    ((∀ off ∈ (List.range len.val).map (dinBase + ·), byteAt s.mem off ≠ none) ∧
      cipherCommand rks len s = .next { s with
        mem := writeQuads s.mem doutBase (transformBlocks s.bsel s.cap.hasGather rks (dinBlocks s len.val)),
        err := .ok }) ∨
    ∃ off ∈ (List.range len.val).map (dinBase + ·), byteAt s.mem off = none ∧
      cipherCommand rks len s = .fault (.unwrittenByte off) := by
  have hlen := accepted_is_whole_blocks hl
  have hlegal : legalLength len s.bsel = true := by rw [legalLength_eq_accepted, hl]
  rcases readQuads_cases s.mem dinBase (len.val / 16) with ⟨hw, e⟩ | ⟨k, hk', hn, e⟩
  · refine .inl ⟨fun off ho => ?_, by simp [cipherCommand, hlegal, hk, e, succeed, dinBlocks]⟩
    obtain ⟨k, hk, rfl⟩ := List.mem_map.1 ho
    exact hw k (by have := List.mem_range.1 hk; omega)
  · exact .inr ⟨dinBase + k, List.mem_map.2 ⟨k, List.mem_range.2 (by omega), rfl⟩, hn,
      by simp [cipherCommand, hlegal, hk, e]⟩

/-- The key KEYINIT reads: its 16 bytes, or the fault of an unwritten one. -/
theorem execKeyinit_ok_cases (s : State) :
    ((∀ off ∈ (List.range 16).map (keyBase + ·), byteAt s.mem off ≠ none) ∧
      execKeyinit 16 s = .next
        { s with rk := keySchedule (quadFrom (byteOrZero s.mem) keyBase), kv := true, err := .ok }) ∨
    ∃ off ∈ (List.range 16).map (keyBase + ·), byteAt s.mem off = none ∧
      execKeyinit 16 s = .fault (.unwrittenByte off) := by
  rcases readQuad_cases s.mem keyBase with ⟨hw, e⟩ | ⟨k, hk, hn, e⟩
  · refine .inl ⟨fun off ho => ?_, by simp [execKeyinit, e, succeed]⟩
    obtain ⟨k, hk, rfl⟩ := List.mem_map.1 ho
    exact hw k (List.mem_range.1 hk)
  · exact .inr ⟨keyBase + k, List.mem_map.2 ⟨k, List.mem_range.2 hk, rfl⟩, hn, by simp [execKeyinit, e]⟩

/-- A command that passes its checks completes with `okResult`, or faults on an unwritten byte it reads. -/
theorem exec_ok_cases (i : Instr) (s : State) (h : errorOf i s = .ok) :
    ((∀ off ∈ bufferReads i, byteAt s.mem off ≠ none) ∧ exec i s = .next (okResult i s)) ∨
    ∃ off ∈ bufferReads i, byteAt s.mem off = none ∧ exec i s = .fault (.unwrittenByte off) := by
  cases i with
  | keyinit len =>
    have hl : len = 16 := Fin.ext (by simpa [errorOf, Instr.wellFormed, needsAes, hasBadLength, needsKey] using h)
    subst hl
    exact execKeyinit_ok_cases s
  | enc len =>
    simp only [errorOf, Instr.wellFormed, needsAes, hasBadLength, needsKey] at h
    exact cipherCommand_ok_cases s.rk.toList (by grind) (by grind)
  | dec len =>
    simp only [errorOf, Instr.wellFormed, needsAes, hasBadLength, needsKey] at h
    exact cipherCommand_ok_cases s.rk.toList.reverse (by grind) (by grind)
  | keyrel => left; cases hk : s.kv <;> simp [bufferReads, exec, execKeyrel, okResult, hk, succeed]
  | selb b =>
    left
    have h' : ¬ (b = .aes ∧ s.cap.hasAes = false) := by
      simp [errorOf, Instr.wellFormed, needsAes, hasBadLength, needsKey] at h; rintro ⟨h1, h2⟩; simp_all
    simp [bufferReads, exec, execSelb, okResult, succeed, h']
  | subb rd rs =>
    left
    simp [errorOf, Instr.wellFormed, needsAes, hasBadLength, needsKey] at h
    simp [bufferReads, exec, execSubb, okResult, h, unaryCommand, succeed]
  | rnd rd rs rt =>
    left
    simp [errorOf, Instr.wellFormed, needsAes, hasBadLength, needsKey] at h
    simp [bufferReads, exec, execRnd, okResult, h, succeed]
  | krnd rd rs c =>
    left
    simp [errorOf, Instr.wellFormed, needsAes, hasBadLength, needsKey] at h
    simp [bufferReads, exec, execKrnd, okResult, h, succeed]
  | aesl rd rs rt =>
    left
    have : groupBase rd = true ∧ groupBase rs = true ∧ groupBase rt = true ∧ s.cap.hasAes = true := by
      simp [errorOf, Instr.wellFormed, needsAes, hasBadLength, needsKey] at h; split_ifs at h; simp_all
    simp [bufferReads, exec, execAesl, okResult, this, succeed]
  | suba rd rs => left; simp [bufferReads, exec, okResult, execSuba, unaryCommand, succeed]
  | subc rd rs => left; simp [bufferReads, exec, okResult, execSubc, unaryCommand, succeed]
  | lin rd rs => left; simp [bufferReads, exec, okResult, execLin, unaryCommand, succeed]
  | link rd rs => left; simp [bufferReads, exec, okResult, execLink, unaryCommand, succeed]

end Sys2Proof.Machine
end

