-- ==== Sys2Proof/Laws/Decode.lean ====
section
/-! SUPPORT. The opcode map: no word matches two rows, and what decoding answers (spec/30_encoding.md R77). -/

namespace Sys2Proof

/-- No two rows can match one word: on the bits both rows fix, their patterns differ. -/
theorem opcodeMap_rows_disjoint :
    opcodeMap.Pairwise fun r q => r.pattern &&& q.mask ≠ q.pattern &&& r.mask := by decide

/-- Every pattern lies inside its mask, so each row matches some word. -/
theorem opcodeMap_patterns_masked : ∀ r ∈ opcodeMap, r.pattern &&& r.mask = r.pattern := by decide

/-- Where decoding answers a command, some row matched and built it. -/
theorem decode_eq_ok {v : Word} {i : Instr} (h : decode v = .ok i) :
    ∃ r ∈ opcodeMap, v &&& r.mask = r.pattern ∧ r.build v = .ok i := by
  unfold decode at h
  split at h
  · rename_i r hr
    exact ⟨r, List.mem_of_find?_eq_some hr, by simpa using List.find?_some hr, h⟩
  · split at h <;> simp at h

/-- The bits of a field (R7). -/
theorem bitField_testBit (v : Word) (hi lo i : Nat) :
    (bitField v hi lo).testBit i = (decide (i < hi + 1 - lo) && v.getLsbD (lo + i)) := by
  simp [bitField, Nat.testBit_mod_two_pow, Nat.testBit_shiftRight, BitVec.getLsbD]

theorem fieldRd_val (v : Word) : (fieldRd v).val = bitField v 23 21 :=
  Nat.mod_eq_of_lt (Nat.mod_lt _ (by norm_num))

theorem fieldRs_val (v : Word) : (fieldRs v).val = bitField v 20 18 :=
  Nat.mod_eq_of_lt (Nat.mod_lt _ (by norm_num))

theorem fieldRt_val (v : Word) : (fieldRt v).val = bitField v 17 15 :=
  Nat.mod_eq_of_lt (Nat.mod_lt _ (by norm_num))

theorem fieldImm5_val (v : Word) : (fieldImm5 v).val = bitField v 14 10 :=
  Nat.mod_eq_of_lt (Nat.mod_lt _ (by norm_num))

theorem fieldLen_val (v : Word) : (fieldLen v).val = bitField v 7 0 :=
  Nat.mod_eq_of_lt (Nat.mod_lt _ (by norm_num))

end Sys2Proof
end

