-- ==== Sys2Proof/Laws/HostPort.lean ====
section
/-! SUPPORT. The register map and the accesses the window admits (spec/20_memory.md R51, R52), and everything a
step can do. -/

namespace Sys2Proof.Machine

/-! ### Regions and their offsets (R51) -/

theorem regionOf_eq_cmd {off : Nat} : regionOf off = some .cmd ↔ off < 0x004 := by
  unfold regionOf; split_ifs <;> simp <;> omega

theorem regionOf_eq_key {off : Nat} : regionOf off = some .key ↔ 0x010 ≤ off ∧ off < 0x020 := by
  unfold regionOf; split_ifs <;> simp <;> omega

theorem regionOf_eq_w {off : Nat} : regionOf off = some .w ↔ 0x020 ≤ off ∧ off < 0x040 := by
  unfold regionOf; split_ifs <;> simp <;> omega

theorem regionOf_eq_reserved {off : Nat} : regionOf off = some .reserved ↔ 0x040 ≤ off ∧ off < 0x100 := by
  unfold regionOf; split_ifs <;> simp <;> omega

theorem regionOf_eq_din {off : Nat} : regionOf off = some .din ↔ 0x100 ≤ off ∧ off < 0x180 := by
  unfold regionOf; split_ifs <;> simp <;> omega

theorem regionOf_eq_dout {off : Nat} : regionOf off = some .dout ↔ 0x180 ≤ off ∧ off < 0x200 := by
  unfold regionOf; split_ifs <;> simp <;> omega

theorem regionOf_eq_none {off : Nat} : regionOf off = none ↔ 0x200 ≤ off := by
  unfold regionOf; split_ifs <;> simp <;> omega

/-! ### Admission (R52) -/

theorem admitWord_eq_ok_iff {off : Nat} {r : Region} :
    admitWord off = .ok r ↔ regionOf off = some r ∧ off % 4 = 0 := by
  unfold admitWord
  rcases regionOf off with _ | q
  · simp
  · by_cases h : off % 4 = 0 <;> simp [h]

theorem admitByte_eq_ok_iff {off : Nat} {r : Region} :
    admitByte off = .ok r ↔ regionOf off = some r ∧ r.admitsBytes = true := by
  unfold admitByte
  rcases regionOf off with _ | q
  · simp
  · by_cases h : q.admitsBytes = true
    · simp only [h, if_true, Except.ok.injEq, Option.some.injEq]
      exact ⟨fun e => ⟨e, e ▸ h⟩, fun e => e.1⟩
    · simp only [h, Option.some.injEq]
      exact ⟨fun e => by simp at e, fun e => absurd (e.1 ▸ e.2) h⟩

/-- A 32-bit access is admitted exactly at the offsets R52 names. -/
theorem admitWord_admits (off : Nat) :
    (wordOffset off = true ∧ ∃ r, admitWord off = .ok r) ∨
    (wordOffset off = false ∧ ∃ e, admitWord off = .error e) := by
  unfold admitWord wordOffset
  rcases h : regionOf off with _ | r
  · have := regionOf_eq_none.1 h
    exact .inr ⟨by simp; omega, _, rfl⟩
  · have : off < 0x200 := by
      by_contra hc
      rw [regionOf_eq_none.2 (by omega)] at h; cases h
    by_cases h4 : off % 4 = 0
    · exact .inl ⟨by simp [h4, this], r, by simp [h4]⟩
    · exact .inr ⟨by simp [h4], .misaligned, by simp [h4]⟩

theorem regionOf_admitsBytes {off : Nat} {r : Region} (h : regionOf off = some r) :
    r.admitsBytes = byteOffset off := by
  unfold regionOf at h
  split_ifs at h <;> cases h <;> simp [Region.admitsBytes, byteOffset] <;> omega

/-- An 8-bit access is admitted exactly at the offsets R52 names. -/
theorem admitByte_admits (off : Nat) :
    (byteOffset off = true ∧ ∃ r, admitByte off = .ok r) ∨
    (byteOffset off = false ∧ ∃ e, admitByte off = .error e) := by
  unfold admitByte
  rcases h : regionOf off with _ | r
  · have := regionOf_eq_none.1 h
    exact .inr ⟨by simp [byteOffset]; omega, _, rfl⟩
  · rw [← regionOf_admitsBytes h]
    cases hb : r.admitsBytes
    · exact .inr ⟨rfl, .wordOnly, by simp [hb]⟩
    · exact .inl ⟨rfl, r, by simp [hb]⟩

/-! ### One event -/

theorem step_cons {s : State} {e : HostEvent} {rest : List HostEvent} (h : s.host = e :: rest) :
    step s = hostEvent e { s with host := rest } := by
  simp [step, nextEvent, h]

theorem step_nil {s : State} (h : s.host = []) : step s = .next s := by
  simp [step, nextEvent, h]

theorem hostEvent_cmd (v : Word) (s : State) : hostEvent (.wrW 0x000 v) s = issue v s := by
  simp [hostEvent, admitWord, regionOf, wordWriteAt]

theorem issue_of_decode {v : Word} {i : Instr} (h : decode v = .ok i) (s : State) : issue v s = exec i s := by
  simp [issue, h]

theorem issue_of_illegal {v : Word} {e : IllegalWord} (h : decode v = .error e) (s : State) :
    issue v s = .next { s with err := .illegalCmd } := by
  simp [issue, h, failWith]

/-- Everything an admitted read and an admitted write that is no command can do, and what a command word does. -/
theorem hostEvent_next_cases {e : HostEvent} {s t : State} (h : hostEvent e s = .next t) :
    (∃ v, t = { s with returned := s.returned ++ [v] }) ∨
    (∃ off v, (bufferOffset off ∧ off < 0x180 ∧ off % 4 = 0 ∧ e = .wrW off v) ∧
      t = { s with mem := writeWord s.mem off v }) ∨
    (∃ off v, (bufferOffset off ∧ off < 0x180 ∧ e = .wrB off v) ∧ t = { s with mem := setByte s.mem off v }) ∨
    (∃ r v, t = writeW s r v) ∨
    t = s ∨
    (∃ v, e = .wrW 0x000 v ∧ issue v s = .next t) ∨
    (e = .reset ∧ t = platformReset s) := by
  cases e with
  | rdW off =>
    simp only [hostEvent] at h
    rcases ha : admitWord off with _ | r <;> simp only [ha, withAdmitted_error, withAdmitted_ok, reduceCtorEq] at h
    obtain ⟨v, -, hv⟩ := withRead_eq_next_iff.1 h
    simp only [giveBack, Host.Outcome.next.injEq] at hv
    exact .inl ⟨_, hv.symm⟩
  | rdB off =>
    simp only [hostEvent] at h
    rcases ha : admitByte off with _ | r <;> simp only [ha, withAdmitted_error, withAdmitted_ok, reduceCtorEq] at h
    obtain ⟨v, -, hv⟩ := withRead_eq_next_iff.1 h
    simp only [giveBack, Host.Outcome.next.injEq] at hv
    exact .inl ⟨_, hv.symm⟩
  | wrW off v =>
    simp only [hostEvent] at h
    rcases ha : admitWord off with _ | r <;> simp only [ha, withAdmitted_error, withAdmitted_ok, reduceCtorEq] at h
    obtain ⟨hr, h4⟩ := admitWord_eq_ok_iff.1 ha
    cases r <;> simp only [wordWriteAt, Host.Outcome.next.injEq] at h
    case cmd =>
      have := regionOf_eq_cmd.1 hr
      obtain rfl : off = 0 := by omega
      exact .inr (.inr (.inr (.inr (.inr (.inl ⟨v, rfl, h⟩)))))
    case key =>
      have := regionOf_eq_key.1 hr
      exact .inr (.inl ⟨off, v, ⟨.inl (by omega), by omega, h4, rfl⟩, h.symm⟩)
    case din =>
      have := regionOf_eq_din.1 hr
      exact .inr (.inl ⟨off, v, ⟨.inr (by omega), by omega, h4, rfl⟩, h.symm⟩)
    case w => exact .inr (.inr (.inr (.inl ⟨_, _, h.symm⟩)))
    all_goals exact .inr (.inr (.inr (.inr (.inl h.symm))))
  | wrB off v =>
    simp only [hostEvent] at h
    rcases ha : admitByte off with _ | r <;> simp only [ha, withAdmitted_error, withAdmitted_ok, reduceCtorEq] at h
    obtain ⟨hr, hb⟩ := admitByte_eq_ok_iff.1 ha
    cases r <;> simp only [byteWriteAt, Host.Outcome.next.injEq] at h
    case key =>
      have := regionOf_eq_key.1 hr
      exact .inr (.inr (.inl ⟨off, v, ⟨.inl (by omega), by omega, rfl⟩, h.symm⟩))
    case din =>
      have := regionOf_eq_din.1 hr
      exact .inr (.inr (.inl ⟨off, v, ⟨.inr (by omega), by omega, rfl⟩, h.symm⟩))
    all_goals exact .inr (.inr (.inr (.inr (.inl h.symm))))
  | rdOdd w off => simp [hostEvent] at h
  | wrOdd w off => simp [hostEvent] at h
  | reset =>
    simp only [hostEvent, Host.Outcome.next.injEq] at h
    exact .inr (.inr (.inr (.inr (.inr (.inr ⟨rfl, h.symm⟩)))))

end Sys2Proof.Machine
end

