-- ==== Sys2Proof/Laws/PerInstr.lean ====
section
/-! SUPPORT. A law about every command as syntax, one lemma per constructor: the word `encode` gives
lies in its own row of the opcode map (spec/30_encoding.md R77), so it uses no bit the row does not. -/

namespace Sys2Proof.Laws.RowMatch

/-- The mask and the match of a command's row in R77. -/
def row : Instr → Word × Word
  | .keyinit _ => (0xFFFFFF00, 0x01000000)
  | .keyrel => (0xFFFFFFFF, 0x02000000)
  | .selb _ => (0xFFFFFFFC, 0x08000000)
  | .enc _ => (0xFFFFFF00, 0x10000000)
  | .dec _ => (0xFFFFFF00, 0x11000000)
  | .suba _ _ => (0xFF03FFFF, 0x20000000)
  | .subb _ _ => (0xFF03FFFF, 0x21000000)
  | .subc _ _ => (0xFF03FFFF, 0x22000000)
  | .lin _ _ => (0xFF03FFFF, 0x23000000)
  | .link _ _ => (0xFF03FFFF, 0x24000000)
  | .rnd _ _ _ => (0xFF007FFF, 0x25000000)
  | .krnd _ _ _ => (0xFF0383FF, 0x26000000)
  | .aesl _ _ _ => (0xFF007FFF, 0x27000000)

def Statement (i : Instr) : Prop := encode i &&& (row i).1 = (row i).2

theorem keyinit (len : Fin 256) : Statement (.keyinit len) := by revert len; unfold Statement; decide +kernel

theorem keyrel : Statement .keyrel := by unfold Statement; decide

theorem selb (b : Backend) : Statement (.selb b) := by cases b <;> unfold Statement <;> decide

theorem enc (len : Fin 256) : Statement (.enc len) := by revert len; unfold Statement; decide +kernel

theorem dec (len : Fin 256) : Statement (.dec len) := by revert len; unfold Statement; decide +kernel

theorem suba (rd rs : Reg) : Statement (.suba rd rs) := by revert rd rs; unfold Statement; decide +kernel

theorem subb (rd rs : Reg) : Statement (.subb rd rs) := by revert rd rs; unfold Statement; decide +kernel

theorem subc (rd rs : Reg) : Statement (.subc rd rs) := by revert rd rs; unfold Statement; decide +kernel

theorem lin (rd rs : Reg) : Statement (.lin rd rs) := by revert rd rs; unfold Statement; decide +kernel

theorem link (rd rs : Reg) : Statement (.link rd rs) := by revert rd rs; unfold Statement; decide +kernel

theorem rnd (rd rs rt : Reg) : Statement (.rnd rd rs rt) := by
  revert rd rs rt; unfold Statement; decide +kernel

theorem krnd (rd rs : Reg) (i : Fin 32) : Statement (.krnd rd rs i) := by
  revert rd rs i; unfold Statement; decide +kernel

theorem aesl (rd rs rt : Reg) : Statement (.aesl rd rs rt) := by
  revert rd rs rt; unfold Statement; decide +kernel

end Sys2Proof.Laws.RowMatch
end

