-- ==== Sys2Proof/Tests/Slice0.lean ====
section
/-! SUPPORT. Tests of one step each, with expected results from spec/95_test_vectors.md (V1 to V22), and for
every claim with hypotheses a named witness that meets them. -/

namespace Sys2Proof.Tests

open Sys2Proof Sys2Proof.Machine

set_option Elab.async false

/-! ### Small states -/

/-- The key and the plaintext of V1, as words. -/
def v1 : Quad := ⟨0x01234567, 0x89ABCDEF, 0xFEDCBA98, 0x76543210⟩

/-- The ciphertext of V1. -/
def v1Cipher : Quad := ⟨0x681EDF34, 0xD206965E, 0x86B3E94F, 0x536E4246⟩

/-- Reset, then eight W registers written. -/
def withW (w : Vector Word 8) : State := { State.reset with w := w, wWritten := Vector.replicate 8 true }

/-- Reset, then KEY written with V1's key. -/
def keyWritten : State := { State.reset with mem := writeQuad [] keyBase v1 }

/-- V1's key loaded, and one block in `DIN[0 .. 15]`. -/
def loaded (block : Quad) : State :=
  { State.reset with mem := writeQuad [] dinBase block, rk := keySchedule v1, kv := true }

/-- V1's key loaded, eight blocks in `DIN[0 .. 127]`, and a backend selected. -/
def loadedEight (b : Backend) : State :=
  { State.reset with mem := writeQuads [] dinBase (List.replicate 8 v1), rk := keySchedule v1, kv := true, bsel := b }

/-- An instance without the AES unit, right after reset. -/
def noAes : State := State.resetFor ⟨false, true⟩

/-- The host accesses to come. -/
def withHost (s : State) (es : List HostEvent) : State := { s with host := es }

/-- The next state, seen through `f`; none at a fault or a refusal. -/
def seen (r : Result) (f : State → α) : Option α :=
  match r with
  | .next t => some (f t)
  | .fault _ => none
  | .refused _ => none

/-- The fault an outcome is. -/
def faultOf (r : Result) : Option Fault :=
  match r with
  | .next _ => none
  | .fault f => some f
  | .refused _ => none

/-- The refusal an outcome is. -/
def refusalOf (r : Result) : Option Refusal :=
  match r with
  | .next _ => none
  | .fault _ => none
  | .refused e => some e

theorem eq_next_of_seen {r : Result} {t : State} (h : seen r id = some t) : r = .next t := by
  cases r <;> simp_all [seen]

theorem eq_fault_of_faultOf {r : Result} {f : Fault} (h : faultOf r = some f) : r = .fault f := by
  cases r <;> simp_all [faultOf]

/-! ### Well-formedness (R79) and command words (V21) -/

theorem test_rnd_window_must_fit : (Instr.rnd 0 5 0).wellFormed = false ∧ (Instr.rnd 7 4 7).wellFormed = true := by
  decide

theorem test_krnd_window_must_fit : (Instr.krnd 0 5 0).wellFormed = false ∧ (Instr.krnd 7 4 31).wellFormed = true := by
  decide

theorem test_aesl_bases_are_0_or_4 :
    (Instr.aesl 1 0 4).wellFormed = false ∧ (Instr.aesl 0 1 4).wellFormed = false ∧
    (Instr.aesl 0 4 1).wellFormed = false ∧ (Instr.aesl 4 0 4).wellFormed = true := by decide

theorem test_decode_key_commands :
    decode 0x01000010 = .ok (.keyinit 16) ∧ decode 0x0100000F = .ok (.keyinit 15) ∧ decode 0x02000000 = .ok .keyrel := by
  decide +kernel

theorem test_decode_selb : decode 0x08000000 = .ok (.selb .table) ∧ decode 0x08000001 = .ok (.selb .aes) ∧
    decode 0x08000002 = .ok (.selb .simd) := by decide +kernel

theorem test_decode_enc_dec : decode 0x10000010 = .ok (.enc 16) ∧ decode 0x10000080 = .ok (.enc 128) ∧
    decode 0x11000080 = .ok (.dec 128) := by decide +kernel

theorem test_decode_unary : decode 0x20F80000 = .ok (.suba 7 6) ∧ decode 0x21200000 = .ok (.subb 1 0) ∧
    decode 0x226C0000 = .ok (.subc 3 3) ∧ decode 0x23FC0000 = .ok (.lin 7 7) ∧ decode 0x24200000 = .ok (.link 1 0) := by
  decide +kernel

theorem test_decode_rounds : decode 0x25828000 = .ok (.rnd 4 0 5) ∧ decode 0x25900000 = .ok (.rnd 4 4 0) ∧
    decode 0x26800000 = .ok (.krnd 4 0 0) ∧ decode 0x26107C00 = .ok (.krnd 0 4 31) := by decide +kernel

theorem test_decode_aesl : decode 0x27020000 = .ok (.aesl 0 0 4) ∧ decode 0x27820000 = .ok (.aesl 4 0 4) ∧
    decode 0x27100000 = .ok (.aesl 0 4 0) := by decide +kernel

theorem test_decode_rejects_unused_bits :
    decode 0x01000110 = .error .unusedBits ∧ decode 0x02000001 = .error .unusedBits ∧
    decode 0x08000004 = .error .unusedBits ∧ decode 0x20208000 = .error .unusedBits ∧
    decode 0x20200001 = .error .unusedBits ∧ decode 0x25828400 = .error .unusedBits ∧
    decode 0x26A48400 = .error .unusedBits := by decide +kernel

theorem test_decode_rejects_operands :
    decode 0x08000003 = .error .noSuchBackend ∧ decode 0x25940000 = .error .windowPastW7 ∧
    decode 0x27220000 = .error .unalignedGroup := by decide +kernel

theorem test_decode_rejects_opcodes :
    decode 0x12000000 = .error .unassignedOpcode ∧ decode 0x28000000 = .error .unassignedOpcode ∧
    decode 0x00000000 = .error .unassignedOpcode ∧ decode 0xFFFFFFFF = .error .unassignedOpcode := by decide +kernel

theorem test_encode_words : encode (.enc 48) = 0x10000030 ∧ encode (.rnd 3 4 0) = 0x25700000 ∧
    encode (.krnd 5 1 1) = 0x26A40400 ∧ encode (.aesl 4 0 0) = 0x27800000 := by decide +kernel

/-! ### Commands, one step each -/

/-- V2: the first and last subkeys of V1's key, and KV. -/
theorem test_keyinit : seen (exec (.keyinit 16) keyWritten) (fun t => (t.rk[0], t.rk[31], statusWord t)) =
    some (0xF12186F9, 0x9124A012, 0x00000010) := by decide +kernel

/-- V19: KEYINIT 15. -/
theorem test_keyinit_length : seen (exec (.keyinit 15) keyWritten) statusWord = some 0x00000001 := by decide +kernel

/-- V19: KEYREL with a key. -/
theorem test_keyrel : seen (exec .keyrel (loaded v1)) (fun t => (t.kv, statusWord t)) = some (false, 0) := by
  decide +kernel

/-- V19: SELB 1 without the AES unit. -/
theorem test_selb_no_cap : seen (exec (.selb .aes) noAes) (fun t => (t.bsel, statusWord t)) =
    some (.table, 0x00000002) := by decide +kernel

theorem test_selb : seen (exec (.selb .simd) State.reset) bselWord = some 2 := by decide +kernel

/-- V1. -/
theorem test_enc : seen (exec (.enc 16) (loaded v1)) (fun t => readQuad t.mem doutBase) = some (.ok v1Cipher) := by
  decide +kernel

/-- V19: 48 bytes under B with no key is BAD_LENGTH, not NO_KEY. -/
theorem test_enc_length_before_key :
    seen (exec (.enc 48) { State.reset with bsel := .aes }) statusWord = some 0x00000001 := by decide +kernel

/-- V4. -/
theorem test_dec : seen (exec (.dec 16) (loaded v1Cipher)) (fun t => readQuad t.mem doutBase) = some (.ok v1) := by
  decide +kernel

/-- V19: NO_KEY, with DIN unwritten. -/
theorem test_dec_no_key : seen (exec (.dec 16) State.reset) statusWord = some 0x00000003 := by decide +kernel

/-- V11. -/
theorem test_suba : seen (exec (.suba 7 6) (withW #v[0, 0, 0, 0, 0, 0, 0xF002C39E, 0])) (fun t => t.w[7]) =
    some 0x18E992B1 := by decide +kernel

theorem test_subb : seen (exec (.subb 1 0) (withW #v[0x01234567, 0, 0, 0, 0, 0, 0, 0])) (fun t => t.w[1]) =
    some 0x90F473A2 := by decide +kernel

/-- V11: destination equal to source. -/
theorem test_subc : seen (exec (.subc 3 3) (withW #v[0, 0, 0, 0x89ABCDEF, 0, 0, 0, 0])) (fun t => t.w[3]) =
    some 0xF7AB1084 := by decide +kernel

/-- V11, with `HAS_GATHER = 1`. -/
theorem test_subc_gather :
    seen (exec (.subc 1 0) { noAes with w := #v[0x00010203, 0, 0, 0, 0, 0, 0, 0] }) (fun t => t.w[1]) =
      some 0xD690E9FE := by decide +kernel

/-- V9: destination equal to source. -/
theorem test_lin : seen (exec (.lin 7 7) (withW #v[0, 0, 0, 0, 0, 0, 0, 0x18E992B1])) (fun t => t.w[7]) =
    some 0x26D99622 := by decide +kernel

/-- V10. -/
theorem test_link : seen (exec (.link 1 0) (withW #v[0x12345678, 0, 0, 0, 0, 0, 0, 0])) (fun t => t.w[1]) =
    some 0xA4F24E15 := by decide +kernel

/-- V12: the first round of V1. -/
theorem test_rnd :
    seen (exec (.rnd 4 0 5) (withW #v[0x01234567, 0x89ABCDEF, 0xFEDCBA98, 0x76543210, 0, 0xF12186F9, 0, 0]))
      (fun t => t.w[4]) = some 0x27FAD345 := by decide +kernel

/-- V12: one register both in the window and as round key. -/
theorem test_rnd_key_in_window :
    seen (exec (.rnd 4 0 0) (withW #v[0x01234567, 0x89ABCDEF, 0xFEDCBA98, 0x76543210, 0, 0, 0, 0]))
      (fun t => t.w[4]) = some 0x5A781E3C := by decide +kernel

/-- V20: rk0. -/
theorem test_krnd_first :
    seen (exec (.krnd 4 0 0) (withW #v[0xA292FFA1, 0xDF01FEBF, 0x99A12B0F, 0xC42410CC, 0, 0, 0, 0]))
      (fun t => t.w[4]) = some 0xF12186F9 := by decide +kernel

/-- V20: rk31. -/
theorem test_krnd_last :
    seen (exec (.krnd 0 4 31) (withW #v[0, 0, 0, 0, 0xF1780C81, 0x428D3654, 0x62293496, 0x01CF72E5]))
      (fun t => t.w[0]) = some 0x9124A012 := by decide +kernel

/-- V17: the last round of the FIPS-197 example, the result over the state group. -/
theorem test_aesl :
    seen (exec (.aesl 0 0 4) (withW #v[0xBD6E7C3D, 0xF2B5779E, 0x0B61216E, 0x8B10B689,
      0x13111D7F, 0xE3944A17, 0xF307A78B, 0x4D2B30C5])) (fun t => t.w) =
    some #v[0x69C4E0D8, 0x6A7B0430, 0xD8CDB780, 0x70B4C55A, 0x13111D7F, 0xE3944A17, 0xF307A78B, 0x4D2B30C5] := by
  decide +kernel

/-- V19: NO_CAP. -/
theorem test_aesl_no_cap : seen (exec (.aesl 0 0 4) noAes) statusWord = some 0x00000002 := by decide +kernel

/-- V11: eight lanes through two AES states, each word in its own lane (R158). -/
theorem test_batch_substitution :
    batchTauB [0x00000000, 0x01234567, 0xFFFFFFFF, 0x00010203, 0x89ABCDEF, 0xF002C39E, 0x80808080, 0x04050607] =
      [0xD6D6D6D6, 0x90F473A2, 0x48484848, 0xD690E9FE, 0xF7AB1084, 0x18E992B1, 0xEAEAEAEA, 0xCCE13DB7] := by
  decide +kernel

/-- V17: ShiftRows. -/
theorem test_shiftRows : List.ofFn (shiftRows fun j => BitVec.ofNat 8 j.val) =
    [0x00, 0x05, 0x0A, 0x0F, 0x04, 0x09, 0x0E, 0x03, 0x08, 0x0D, 0x02, 0x07, 0x0C, 0x01, 0x06, 0x0B] := by
  decide +kernel

/-- V17, V18: inverses and the direct form, at a few bytes. -/
theorem test_inverses : invSoft 0x02 = 0x8D ∧ invSoft 0x53 = 0xCA ∧ invSoft 0x00 = 0x00 ∧ invSm4 0x02 = 0xFA ∧
    invSm4 0x07 = 0x95 ∧ sboxDirect 0x53 = 0xB2 := by decide +kernel

/-! ### The host port (V22) -/

theorem test_read_cap : seen (step (withHost State.reset [.rdW 0x008])) State.returned = some [.word 1] := by
  decide +kernel

theorem test_write_din_big_endian :
    seen (step (withHost State.reset [.wrW 0x100 0x01234567]))
      (fun t => (byteAt t.mem 0x100, byteAt t.mem 0x101, byteAt t.mem 0x103)) =
      some (some 0x01, some 0x23, some 0x67) := by decide +kernel

theorem test_read_din_word :
    seen (step (withHost { State.reset with mem := setByte (writeWord [] 0x100 0x01234567) 0x103 0xFF } [.rdW 0x100]))
      State.returned = some [.word 0x012345FF] := by decide +kernel

theorem test_read_unwritten_byte_faults :
    faultOf (step (withHost { State.reset with mem := [(0x010, 0x01)] } [.rdW 0x010])) = some (.unwrittenByte 0x011) := by
  decide +kernel

theorem test_read_unwritten_byte_faults_8_bit :
    faultOf (step (withHost State.reset [.rdB 0x180])) = some (.unwrittenByte 0x180) := by decide +kernel

theorem test_read_only_dout : seen (step (withHost State.reset [.wrW 0x180 0x11111111])) State.mem = some [] := by
  decide +kernel

theorem test_refusals :
    refusalOf (step (withHost State.reset [.rdB 0x024])) = some .wordOnly ∧
    refusalOf (step (withHost State.reset [.rdW 0x102])) = some .misaligned ∧
    refusalOf (step (withHost State.reset [.wrW 0x200 0])) = some .outsideWindow ∧
    refusalOf (step (withHost State.reset [.rdB 0x004])) = some .wordOnly ∧
    refusalOf (step (withHost State.reset [.rdOdd .bits16 0x100])) = some .accessWidth := by decide +kernel

theorem test_reserved : seen (step (withHost State.reset [.rdB 0x0FF])) State.returned = some [.byte 0] := by
  decide +kernel

theorem test_write_w1 : seen (step (withHost State.reset [.wrW 0x024 0xCAFEF00D])) (fun t => t.w[1]) =
    some 0xCAFEF00D := by decide +kernel

/-- V19: the zero word through the port. -/
theorem test_illegal_word : seen (step (withHost State.reset [.wrW 0x000 0])) statusWord = some 0x00000004 := by
  decide +kernel

/-- V11 through the port: the placed word runs as the very next step. -/
theorem test_placed_word_runs :
    seen (step ((withW #v[0, 0, 0, 0, 0, 0, 0, 0]).withFetchWord 32 0x20200000)) (fun t => t.w[1]) =
      some 0xD6D6D6D6 := by decide +kernel

/-! ### Witnesses: the hypotheses of each claim are met -/

theorem witness_PlatformResetRestoresResetState :
    (withHost (loaded v1) [.reset, .rdW 4]).host = HostEvent.reset :: [.rdW 4] := rfl

theorem witness_StepWithNoAccessLeftChangesNothing : State.reset.host = [] := rfl

theorem witness_DecodeOfEncodeIsTheCommand :
    (Instr.krnd 7 4 31).wellFormed = true ∧ (Instr.aesl 4 4 4).wellFormed = true ∧
    (Instr.enc 255).wellFormed = true := by decide

theorem witness_EncodeOfDecodeIsTheWord :
    decode 0x26F07C00 = .ok (.krnd 7 4 31) ∧ decode 0x010000FF = .ok (.keyinit 255) := by decide +kernel

theorem witness_IllegalWordsAreExactlyThose_legal :
    legalWord 0x25908000 = true ∧ legalWord 0x08000002 = true ∧ legalWord 0x27920000 = true := by decide +kernel

theorem witness_IllegalWordsAreExactlyThose_opcode :
    [0x00, 0x03, 0x07, 0x09, 0x0F, 0x12, 0x1F, 0x28, 0xFF].all unassignedOpcode = true ∧
    [0x01, 0x02, 0x08, 0x10, 0x11, 0x20, 0x27].any unassignedOpcode = false ∧
    bitField 0xFF000000 31 24 = 0xFF := by decide +kernel

theorem witness_IllegalWordsAreExactlyThose_step :
    legalWord 0x25940000 = false ∧ legalWord 0x08000003 = false ∧
    (withHost (loaded v1) [.wrW 0x000 0x25940000]).host = [.wrW 0x000 0x25940000] := by decide +kernel

theorem witness_StepRunsTheWrittenCommand :
    (withHost (loaded v1) [.wrW 0x000 0x10000010, .rdW 4]).host = .wrW 0x000 0x10000010 :: [.rdW 4] ∧
    decode 0x10000010 = .ok (.enc 16) := by decide +kernel

theorem witness_PlacedCommandRunsNext : (Instr.rnd 7 4 7).wellFormed = true ∧ Instr.keyrel.wellFormed = true := by
  decide

/-- Each of the four errors occurs. -/
theorem witness_FailedCommandChangesOnlyErr :
    (withHost noAes [.wrW 0x000 0x21200000]).host = .wrW 0x000 0x21200000 :: [] ∧
    wordErrorOf 0x08000003 noAes = .illegalCmd ∧ wordErrorOf 0x21200000 noAes = .noCap ∧
    wordErrorOf 0x10000090 State.reset = .badLength ∧ wordErrorOf 0x11000010 State.reset = .noKey := by decide +kernel

theorem witness_ErrIsTheCodeOfTheLastCommand :
    exec (.selb .simd) State.reset = .next { State.reset with bsel := .simd } ∧
    exec (.enc 0) State.reset = .next { State.reset with err := .badLength } := ⟨rfl, rfl⟩

theorem witness_CommandFaultsExactlyOnUnwrittenBytes :
    errorOf (.enc 16) { State.reset with kv := true } = .ok ∧ 0x100 ∈ bufferReads (.enc 16) ∧
    byteAt State.reset.mem 0x100 = none ∧
    exec (.enc 16) { State.reset with kv := true } = .fault (.unwrittenByte 0x100) :=
  ⟨by decide +kernel, by decide +kernel, rfl, eq_fault_of_faultOf (by decide +kernel)⟩

theorem witness_EveryCommandCompletes :
    (errorOf (.keyinit 16) keyWritten = .ok ∧ ∀ off ∈ bufferReads (.keyinit 16), byteAt keyWritten.mem off ≠ none) ∧
    (errorOf (.enc 128) (loadedEight .aes) = .ok ∧
      ∀ off ∈ bufferReads (.enc 128), byteAt (loadedEight .aes).mem off ≠ none) ∧
    (errorOf (.aesl 4 0 4) State.reset = .ok ∧ bufferReads (.aesl 4 0 4) = []) := by decide +kernel

theorem witness_KeyinitBuildsTheCipherKey :
    (∀ k, k < 16 → byteAt keyWritten.mem (keyBase + k) = some (byteOrZero keyWritten.mem (keyBase + k))) ∧
    (15 : Fin 256).val ≠ 16 := by decide +kernel

theorem witness_KeyinitIsDeterminedByKey :
    (∀ k, k < 16 → byteAt keyWritten.mem (keyBase + k) =
      byteAt { keyWritten with bsel := .simd, err := .noKey }.mem (keyBase + k)) ∧
    (∃ t, exec (.keyinit 16) keyWritten = .next t) ∧
    ∃ t, exec (.keyinit 16) { keyWritten with bsel := .simd, err := .noKey } = .next t :=
  ⟨fun _ _ => rfl, ⟨_, rfl⟩, ⟨_, rfl⟩⟩

theorem witness_KeyrelReleasesTheKey : (loaded v1).kv = true ∧ State.reset.kv = false := ⟨rfl, rfl⟩

theorem witness_KrndComputesOneKeyRound : (4 : Reg).val ≤ 4 ∧ 4 < (5 : Reg).val := by decide

/-- The first step of the chain, with `MK ⊕ FK` in the window (V2, V20). -/
theorem witness_KrndContinuesTheKeySchedule_first :
    let s := withW #v[0xA292FFA1, 0xDF01FEBF, 0x99A12B0F, 0xC42410CC, 0, 0, 0, 0]
    (0 : Reg).val ≤ 4 ∧ 0 < 32 ∧ s.w[0] = (keyWords v1)[0] ∧ s.w[1] = (keyWords v1)[1] ∧
      s.w[2] = (keyWords v1)[2] ∧ s.w[3] = (keyWords v1)[3] := by decide +kernel

/-- The last step whose window holds a word of `MK ⊕ FK`, K[3] before rk0 to rk2 (V2). -/
theorem witness_KrndContinuesTheKeySchedule_fourth :
    let s := withW #v[0, 0, 0, 0xC42410CC, 0xF12186F9, 0x41662B61, 0x5A6AB19A, 0]
    (3 : Reg).val ≤ 4 ∧ 3 < 32 ∧ s.w[3] = (keyWords v1)[3] ∧ s.w[4] = (keyWords v1)[4] ∧
      s.w[5] = (keyWords v1)[5] ∧ s.w[6] = (keyWords v1)[6] := by decide +kernel

/-- The last step of the chain, with rk27 to rk30 in W4 to W7 (V20). -/
theorem witness_KrndContinuesTheKeySchedule_last :
    let s := withW #v[0, 0, 0, 0, 0xF1780C81, 0x428D3654, 0x62293496, 0x01CF72E5]
    (4 : Reg).val ≤ 4 ∧ 31 < 32 ∧ s.w[4] = (keyWords v1)[31] ∧ s.w[5] = (keyWords v1)[32] ∧
      s.w[6] = (keyWords v1)[33] ∧ s.w[7] = (keyWords v1)[34] := by decide +kernel

theorem witness_EncEncryptsEachBlock :
    ((acceptedLengths .table).contains (16 : Fin 256).val = true ∧ (loaded v1).kv = true ∧
      ∀ k, k < 16 → byteAt (loaded v1).mem (dinBase + k) = some (byteOrZero (loaded v1).mem (dinBase + k))) ∧
    ((acceptedLengths .aes).contains (128 : Fin 256).val = true ∧ (loadedEight .aes).kv = true ∧
      ∀ k, k < 128 → byteAt (loadedEight .aes).mem (dinBase + k) =
        some (byteOrZero (loadedEight .aes).mem (dinBase + k))) := by decide +kernel

theorem witness_DecDecryptsEachBlock :
    ((acceptedLengths .table).contains (16 : Fin 256).val = true ∧ (loaded v1Cipher).kv = true ∧
      ∀ k, k < 16 → byteAt (loaded v1Cipher).mem (dinBase + k) =
        some (byteOrZero (loaded v1Cipher).mem (dinBase + k))) ∧
    ((acceptedLengths .simd).contains (128 : Fin 256).val = true ∧ (loadedEight .simd).kv = true ∧
      ∀ k, k < 128 → byteAt (loadedEight .simd).mem (dinBase + k) =
        some (byteOrZero (loadedEight .simd).mem (dinBase + k))) := by decide +kernel

theorem witness_RndComputesOneRound : (4 : Reg).val ≤ 4 ∧ 4 < (5 : Reg).val := by decide

/-- V1's block encrypted: the state ENC 16 leaves. -/
def encrypted : State := { loaded v1 with mem := writeQuad (loaded v1).mem doutBase v1Cipher }

theorem enc_16_of_v1 : exec (.enc 16) (loaded v1) = .next encrypted := eq_next_of_seen (by decide +kernel)

theorem witness_DecUndoesEnc :
    exec (.enc 16) (loaded v1) = .next encrypted ∧ encrypted.err = .ok ∧
    { encrypted with mem := writeQuad encrypted.mem dinBase v1Cipher }.kv = true ∧
    (acceptedLengths encrypted.bsel).contains (16 : Fin 256).val = true ∧
    ∀ j, j < 16 → byteAt (writeQuad encrypted.mem dinBase v1Cipher) (dinBase + j) =
      byteAt encrypted.mem (doutBase + j) := ⟨enc_16_of_v1, by decide +kernel⟩

theorem witness_SboxIsAPermutation : sbox 0xFF = sbox 0xFF := rfl

theorem witness_InvSoftInvertsInTheAesField : (0x53 : Byte) ≠ 0 ∧ (0xFF : Byte) ≠ 0 := by decide

theorem witness_SubbEqualsSubaOrNoCap : State.reset.cap.hasAes = true ∧ noAes.cap.hasAes = false := ⟨rfl, rfl⟩

theorem witness_AeslComputesTheFinalRound :
    (groupBase 0 = true ∧ groupBase 4 = true ∧ State.reset.cap.hasAes = true) ∧
    (groupBase 4 = true ∧ noAes.cap.hasAes = false) ∧
    ((groupBase 0 && groupBase 7 && groupBase 4) = false ∧ (0 : Reg) ∉ group 4 ∧ (3 : Reg) ∉ group 4) := by decide

theorem witness_BatchPathsEqualBlockwiseEncryption : (List.replicate 8 v1).length % 4 = 0 ∧ (0 : Nat) % 4 = 0 := by
  decide

theorem witness_SelbSelectsOrReportsNoCap :
    (Backend.aes = .aes ∧ noAes.cap.hasAes = false) ∧ ¬ (Backend.simd = .aes ∧ noAes.cap.hasAes = false) ∧
    ¬ (Backend.aes = .aes ∧ State.reset.cap.hasAes = false) := by decide

theorem witness_CommandsKeepOtherRegisters :
    (∃ t, exec (.aesl 4 0 4) State.reset = .next t) ∧ (3 : Reg) ∉ destinations (.aesl 4 0 4) ∧
    (∃ t, exec (.suba 0 7) State.reset = .next t) ∧ (7 : Reg) ∉ destinations (.suba 0 7) :=
  ⟨⟨_, rfl⟩, by decide, ⟨_, rfl⟩, by decide⟩

theorem witness_CommandsKeepOtherBytes :
    exec (.enc 16) (loaded v1) = .next encrypted ∧ 0x190 ∉ bufferWrites (.enc 16) ∧ 0x17F ∉ bufferWrites (.enc 16) :=
  ⟨enc_16_of_v1, by decide, by decide⟩

theorem witness_CommandsKeepControlState :
    exec (.enc 16) (loaded v1) = .next encrypted ∧ (∀ b, Instr.enc 16 ≠ .selb b) ∧
    (∀ len, Instr.enc 16 ≠ .keyinit len) ∧ Instr.enc 16 ≠ .keyrel :=
  ⟨enc_16_of_v1, fun _ => nofun, fun _ => nofun, nofun⟩

theorem witness_StepKeepsMemoryCanonical :
    (withHost keyWritten [.wrB 0x17F 0xAA]).memoryCanonical ∧
    ∃ t, step (withHost keyWritten [.wrB 0x17F 0xAA]) = .next t := ⟨by decide +kernel, ⟨_, rfl⟩⟩

theorem witness_StepKeepsBackendPresent :
    (withHost State.reset [.wrW 0x000 0x08000001]).backendPresent ∧
    step (withHost State.reset [.wrW 0x000 0x08000001]) = .next { State.reset with bsel := .aes } :=
  ⟨by decide, eq_next_of_seen (by decide +kernel)⟩

theorem witness_StepKeepsKeyScheduled :
    (withHost (loaded v1) [.wrW 0x010 0]).keyScheduled ∧ (loaded v1).kv = true ∧
    ∃ t, step (withHost (loaded v1) [.wrW 0x010 0]) = .next t := ⟨fun _ => ⟨v1, rfl⟩, rfl, ⟨_, rfl⟩⟩

theorem witness_OnlySelbAndResetChangeBsel :
    step (withHost State.reset [.wrW 0x000 0x08000002]) = .next { State.reset with bsel := .simd } ∧
    Backend.simd ≠ State.reset.bsel := ⟨eq_next_of_seen (by decide +kernel), by decide⟩

theorem witness_OnlyKeyCommandsAndResetChangeTheKey :
    seen (step (withHost keyWritten [.wrW 0x000 0x01000010])) State.kv = some true ∧ keyWritten.kv = false ∧
    seen (step (withHost (loaded v1) [.wrW 0x000 0x02000000])) State.kv = some false ∧ (loaded v1).kv = true := by
  decide +kernel

theorem witness_OnlyEncDecAndResetChangeDout :
    seen (step (withHost (loaded v1) [.wrW 0x000 0x10000010])) (fun t => byteAt t.mem 0x180) = some (some 0x68) ∧
    byteAt (loaded v1).mem 0x180 = none ∧
    seen (step (withHost encrypted [.reset])) (fun t => byteAt t.mem 0x18F) = some none ∧
    byteAt encrypted.mem 0x18F = some 0x46 := by decide +kernel

theorem witness_RefusedExactlyWhenNotAdmitted :
    admitted (.rdB 0x03F) = false ∧ admitted (.rdB 0x040) = true ∧ admitted (.rdB 0x1FF) = true ∧
    admitted (.wrB 0x200 0) = false ∧ admitted (.rdW 0x1FC) = true ∧ admitted (.rdW 0x1FD) = false ∧
    (withHost State.reset [.rdB 0x03F]).host = [.rdB 0x03F] := by decide +kernel

theorem witness_ReadsHaveNoSideEffect :
    (∃ t, step (withHost State.reset [.rdW 0x004]) = .next t) ∧
    ∃ t, step (withHost keyWritten [.rdB 0x01F]) = .next t := ⟨⟨_, rfl⟩, ⟨_, rfl⟩⟩

theorem witness_WordWriteIsBigEndian :
    (withHost State.reset [.wrW 0x17C 5]).host = .wrW 0x17C 5 :: [] ∧
    [0x010, 0x01C, 0x100, 0x17C].all (fun off =>
      off % 4 = 0 ∧ ((0x010 ≤ off ∧ off < 0x020) ∨ (0x100 ≤ off ∧ off < 0x180))) = true := by decide +kernel

theorem witness_WordReadIsBigEndian :
    (withHost encrypted [.rdW 0x18C]).host = .rdW 0x18C :: [] ∧ 0x18C % 4 = 0 ∧ (0x100 ≤ 0x18C ∧ 0x18C < 0x200) ∧
    (∀ k, k < 4 → byteAt encrypted.mem (0x18C + k) = some (byteOrZero encrypted.mem (0x18C + k))) ∧
    (0x1FC % 4 = 0 ∧ (0x100 ≤ 0x1FC ∧ 0x1FC < 0x200) ∧ 3 < 4 ∧ byteAt encrypted.mem (0x1FC + 3) = none) := by
  decide +kernel

theorem witness_ByteAccessesReachOneByte :
    ((withHost State.reset [.wrB 0x17F 9]).host = .wrB 0x17F 9 :: [] ∧ (0x100 ≤ 0x17F ∧ 0x17F < 0x180)) ∧
    ((withHost encrypted [.rdB 0x18F]).host = .rdB 0x18F :: [] ∧ (0x100 ≤ 0x18F ∧ 0x18F < 0x200) ∧
      byteAt encrypted.mem 0x18F = some 0x46) ∧
    ((withHost encrypted [.rdB 0x1FF]).host = .rdB 0x1FF :: [] ∧ (0x100 ≤ 0x1FF ∧ 0x1FF < 0x200) ∧
      byteAt encrypted.mem 0x1FF = none) ∧
    ((withHost State.reset [.rdB 0x010]).host = .rdB 0x010 :: [] ∧ (0x010 ≤ 0x010 ∧ 0x010 < 0x020) ∧
      byteAt State.reset.mem 0x010 = none) := by decide +kernel

theorem witness_ReservedOffsetsReadZero :
    (0x040 ≤ 0x0FC ∧ 0x0FC < 0x100 ∧ 0x0FC % 4 = 0) ∧
    (withHost State.reset [.rdB 0x0FF]).host = .rdB 0x0FF :: [] ∧
    (withHost State.reset [.wrB 0x040 1]).host = .wrB 0x040 1 :: [] ∧
    (withHost State.reset [.rdW 0x0FC]).host = .rdW 0x0FC :: [] ∧
    (withHost State.reset [.wrW 0x040 1]).host = .wrW 0x040 1 :: [] := by decide +kernel

theorem witness_ReadOnlyLocationsIgnoreWrites :
    ((withHost State.reset [.wrW 0x00C 2]).host = .wrW 0x00C 2 :: [] ∧ (0x180 ≤ 0x1FC ∧ 0x1FC < 0x200 ∧ 0x1FC % 4 = 0)) ∧
    ((withHost State.reset [.wrB 0x1FF 2]).host = .wrB 0x1FF 2 :: [] ∧ 0x180 ≤ 0x1FF ∧ 0x1FF < 0x200) ∧
    (withHost State.reset [.rdW 0x000]).host = .rdW 0x000 :: [] := by decide +kernel

theorem witness_ControlRegistersRead :
    (withHost (loaded v1) [.rdW 0x004]).host = .rdW 0x004 :: [] ∧
    (withHost noAes [.rdW 0x008]).host = .rdW 0x008 :: [] ∧
    (withHost (loadedEight .simd) [.rdW 0x00C]).host = .rdW 0x00C :: [] := ⟨rfl, rfl, rfl⟩

theorem witness_HostReachesOperandRegisters :
    (withHost State.reset [.wrW 0x03C 7]).host = .wrW (0x020 + 4 * (7 : Reg).val) 7 :: [] ∧
    (withHost State.reset [.rdW 0x020]).host = .rdW (0x020 + 4 * (0 : Reg).val) :: [] := ⟨rfl, rfl⟩

/-- Reset with other contents of the unwritten W and RK. -/
def otherContents (es : List HostEvent) : State :=
  { withHost State.reset es with w := Vector.replicate 8 0xFFFFFFFF, rk := Vector.replicate 32 0xFFFFFFFF }

theorem witness_UnwrittenRegistersNeverMatter :
    AgreeOnWritten (withHost State.reset [.wrW 0x020 7]) (otherContents [.wrW 0x020 7]) ∧
    readsUnwrittenW (withHost State.reset [.wrW 0x020 7]) = false ∧
    readsUnwrittenW (withHost State.reset [.rdW 0x03C]) = true :=
  ⟨⟨rfl, by decide, fun h => by cases h⟩, by decide +kernel, by decide +kernel⟩

theorem witness_RkIsOpaque : ∀ e rest len, (withHost (loaded v1) [.wrW 0x000 0x02000000]).host = e :: rest →
    ¬ issues e (.enc len) ∧ ¬ issues e (.dec len) := by
  intro e rest len h
  obtain ⟨rfl, -⟩ := List.cons.inj h
  have hd : decode 0x02000000 = .ok .keyrel := by decide +kernel
  constructor
  · rintro ⟨v, hv, he⟩
    cases hv
    rw [hd] at he
    cases he
  · rintro ⟨v, hv, he⟩
    cases hv
    rw [hd] at he
    cases he

end Sys2Proof.Tests
end

section
/-! SUPPORT. How a command ends: with its error code and nothing else changed, with `okResult`, or with the
fault of its buffer read (spec/60_exceptions.md R200 to R209). -/

namespace Sys2Proof.Machine

variable {i : Instr} {s t : State}

/-! ### The checks of each command, in the order its meaning makes them (R208) -/

theorem errorOf_keyinit (len : Fin 256) (s : State) :
    errorOf (.keyinit len) s = if len.val ≠ 16 then .badLength else .ok := by
  simp [errorOf, Instr.wellFormed, needsAes, hasBadLength, needsKey]

theorem errorOf_selb (b : Backend) (s : State) :
    errorOf (.selb b) s = if b = .aes ∧ s.cap.hasAes = false then .noCap else .ok := by
  simp [errorOf, Instr.wellFormed, needsAes, hasBadLength, needsKey]

theorem errorOf_enc (len : Fin 256) (s : State) :
    errorOf (.enc len) s =
      if !legalLength len s.bsel then .badLength else if !s.kv then .noKey else .ok := by
  simp [errorOf, Instr.wellFormed, needsAes, hasBadLength, needsKey, legalLength_eq_accepted]

theorem errorOf_dec (len : Fin 256) (s : State) : errorOf (.dec len) s = errorOf (.enc len) s := rfl

theorem errorOf_subb (rd rs : Reg) (s : State) :
    errorOf (.subb rd rs) s = if s.cap.hasAes then .ok else .noCap := by
  cases h : s.cap.hasAes <;> simp [errorOf, Instr.wellFormed, needsAes, hasBadLength, needsKey, h]

theorem errorOf_rnd (rd rs rt : Reg) (s : State) :
    errorOf (.rnd rd rs rt) s = if !windowBase rs then .illegalCmd else .ok := by
  simp [errorOf, Instr.wellFormed, needsAes, hasBadLength, needsKey]

theorem errorOf_krnd (rd rs : Reg) (c : Fin 32) (s : State) :
    errorOf (.krnd rd rs c) s = if !windowBase rs then .illegalCmd else .ok := by
  simp [errorOf, Instr.wellFormed, needsAes, hasBadLength, needsKey]

theorem errorOf_aesl (rd rs rt : Reg) (s : State) :
    errorOf (.aesl rd rs rt) s =
      if !(groupBase rd && groupBase rs && groupBase rt) then .illegalCmd
      else if !s.cap.hasAes then .noCap else .ok := by
  simp [errorOf, Instr.wellFormed, needsAes, hasBadLength, needsKey]

/-- The checks of a command read CAP, BSEL and KV and nothing else. -/
theorem errorOf_congr (i : Instr) (hcap : t.cap = s.cap) (hbsel : t.bsel = s.bsel) (hkv : t.kv = s.kv) :
    errorOf i t = errorOf i s := by
  simp only [errorOf, hcap, hbsel, hkv]

/-- ENC and DEC pass their checks with an accepted length and a key, and only then. -/
theorem errorOf_enc_eq_ok_iff {len : Fin 256} :
    errorOf (.enc len) s = .ok ↔ (acceptedLengths s.bsel).contains len.val = true ∧ s.kv = true := by
  rw [errorOf_enc, ← legalLength_eq_accepted]
  cases legalLength len s.bsel <;> cases s.kv <;> simp

/-! ### Failure (R206) -/

theorem cipherCommand_of_error {len : Fin 256} (rks : List Word) (h : errorOf (.enc len) s ≠ .ok) :
    cipherCommand rks len s = failWith (errorOf (.enc len) s) s := by
  rw [errorOf_enc] at h ⊢
  unfold cipherCommand
  split_ifs at h ⊢ <;> simp_all

/-- A command that has an error reports it and changes nothing else. -/
theorem exec_of_error (h : errorOf i s ≠ .ok) : exec i s = .next { s with err := errorOf i s } := by
  cases i with
  | keyrel | suba rd rs | subc rd rs | lin rd rs | link rd rs => exact absurd rfl h
  | enc len | dec len => exact cipherCommand_of_error _ h
  | keyinit len | selb b | subb rd rs | rnd rd rs rt | krnd rd rs c | aesl rd rs rt =>
    simp only [errorOf_keyinit, errorOf_selb, errorOf_subb, errorOf_rnd, errorOf_krnd, errorOf_aesl] at h ⊢
    simp only [exec, execKeyinit, execSelb, execSubb, execRnd, execKrnd, execAesl]
    split_ifs at h ⊢ <;> simp_all [failWith]

/-- Where a command answers a next state, that state is the one of its error or `okResult`. -/
theorem exec_next_cases (h : exec i s = .next t) :
    (errorOf i s ≠ .ok ∧ t = { s with err := errorOf i s }) ∨ (errorOf i s = .ok ∧ t = okResult i s) := by
  by_cases he : errorOf i s = .ok
  · obtain ⟨-, hx⟩ | ⟨off, -, -, hx⟩ := exec_ok_cases i s he
    · exact .inr ⟨he, by simpa [hx] using h.symm⟩
    · simp [hx] at h
  · exact .inl ⟨he, by simpa [exec_of_error he] using h.symm⟩

/-- A command that passes its checks completes if the buffer bytes it reads are written. -/
theorem exec_of_written (he : errorOf i s = .ok) (hw : ∀ off ∈ bufferReads i, byteAt s.mem off ≠ none) :
    exec i s = .next (okResult i s) := by
  obtain ⟨-, h⟩ | ⟨off, hoff, hn, -⟩ := exec_ok_cases i s he
  · exact h
  · exact absurd hn (hw off hoff)

/-! ### The buffer read of a command -/

/-- What a command that passes its checks reads of the buffers: KEY for KEYINIT, blocks of DIN for ENC and DEC. -/
def bufferReadOf : Instr → Memory → Except Fault (List Quad)
  | .keyinit _, m => (readQuad m keyBase).map fun k => [k]
  | .enc len, m => readQuads m dinBase (len.val / 16)
  | .dec len, m => readQuads m dinBase (len.val / 16)
  | _, _ => .ok []

theorem cipherCommand_of_ok {len : Fin 256} (rks : List Word) (h : errorOf (.enc len) s = .ok) :
    cipherCommand rks len s = withRead (readQuads s.mem dinBase (len.val / 16)) fun _ => .next { s with
      mem := writeQuads s.mem doutBase (transformBlocks s.bsel s.cap.hasGather rks (dinBlocks s len.val)),
      err := .ok } := by
  obtain ⟨hl, hk⟩ := errorOf_enc_eq_ok_iff.1 h
  rw [← legalLength_eq_accepted] at hl
  obtain ⟨-, hr⟩ | ⟨k, -, -, hr⟩ := readQuads_cases s.mem dinBase (len.val / 16)
  · simp [cipherCommand, hl, hk, hr, succeed, dinBlocks]
  · simp [cipherCommand, hl, hk, hr]

/-- A command that passes its checks completes with `okResult` or ends with the fault of its buffer read, so
its fault depends on the buffers alone (R41, R209). -/
theorem exec_of_ok (h : errorOf i s = .ok) :
    exec i s = withRead (bufferReadOf i s.mem) fun _ => .next (okResult i s) := by
  have of_no_read (hb : bufferReads i = []) (hr : bufferReadOf i s.mem = .ok []) :
      exec i s = withRead (bufferReadOf i s.mem) fun _ => .next (okResult i s) := by
    obtain ⟨-, hx⟩ | ⟨off, hoff, -⟩ := exec_ok_cases i s h
    · rw [hx, hr, withRead_ok]
    · simp [hb] at hoff
  cases i with
  | keyinit len =>
    have hlen : len.val = 16 := by rw [errorOf_keyinit] at h; split_ifs at h; omega
    obtain ⟨-, hr⟩ | ⟨k, -, -, hr⟩ := readQuad_cases s.mem keyBase
    · simp [exec, execKeyinit, hlen, bufferReadOf, hr, Except.map, succeed, okResult]
    · simp [exec, execKeyinit, hlen, bufferReadOf, hr, Except.map]
  | enc len => exact cipherCommand_of_ok _ h
  | dec len => exact cipherCommand_of_ok _ h
  | _ => exact of_no_read rfl rfl

/-! ### The obligation on faults -/

/-- Settles O12: with an error a command completes, without one it completes or faults on an unwritten byte. -/
theorem commandFaultsExactlyOnUnwrittenBytes : Obligations.CommandFaultsExactlyOnUnwrittenBytes := by
  intro i s
  by_cases he : errorOf i s = .ok
  · obtain ⟨hw, hx⟩ | ⟨off, hoff, hn, hx⟩ := exec_ok_cases i s he
    · refine ⟨by simp [hx], ?_, by simp [hx]⟩
      simpa [hx, he] using hw
    · refine ⟨by simp [hx], by simpa [hx, he] using ⟨off, hoff, hn⟩, ?_⟩
      rintro off' hoff'
      obtain rfl : off = off' := by simpa [hx] using hoff'
      exact ⟨hoff, hn⟩
  · simp [exec_of_error he, he]

end Sys2Proof.Machine
end

section
/-! SUPPORT. The three byte and word substitutions are one function (spec/41_round_function.md R129). The products
of Backend C's inversion are computed on natural numbers, where the kernel evaluates them fast enough to go
through all 256 bytes. -/

namespace Sys2Proof.Machine

/-! ### The field products on natural numbers -/

/-- `timesZ` on the numbers below 256. -/
def natTimesZ (red a : Nat) : Nat := (a * 2 % 256) ^^^ (a / 128 * red)

/-- `gmulLoop` on the numbers below 256. -/
def natGmulLoop (red b : Nat) : (n i a r : Nat) → Nat
  | 0, _, _, r => r
  | n + 1, i, a, r => natGmulLoop red b n (i + 1) (natTimesZ red a) (r ^^^ (b / 2 ^ i % 2 * a))

/-- `powChain` of the product modulo `red` on the numbers below 256. -/
def natPowChain (red : Nat) : (n p r : Nat) → Nat
  | 0, _, r => r
  | n + 1, p, r =>
    natPowChain red n (natGmulLoop red p 8 0 p 0) (natGmulLoop red (natGmulLoop red p 8 0 p 0) 8 0 r 0)

theorem toNat_timesZ (red a : Byte) : (timesZ red a).toNat = natTimesZ red.toNat a.toNat := by
  have h7 : a.getLsbD 7 = decide (128 ≤ a.toNat) := by
    rw [← BitVec.msb_eq_getLsbD_last, BitVec.msb_eq_decide]
  have ha : a.toNat < 256 := a.isLt
  rw [timesZ, natTimesZ, BitVec.toNat_xor, BitVec.toNat_shiftLeft, Nat.shiftLeft_eq, h7]
  by_cases h : 128 ≤ a.toNat
  · simp [h, show a.toNat / 128 = 1 by omega]
  · simp [h, show a.toNat / 128 = 0 by omega]

theorem toNat_gmulLoop (red b : Byte) (n i : Nat) (a r : Byte) :
    (gmulLoop red b n i a r).toNat = natGmulLoop red.toNat b.toNat n i a.toNat r.toNat := by
  induction n generalizing i a r with
  | zero => rfl
  | succ n ih =>
    rw [gmulLoop, natGmulLoop, ih, toNat_timesZ]
    have hbit : b.getLsbD i = decide (b.toNat / 2 ^ i % 2 = 1) := Nat.testBit_eq_decide_div_mod_eq
    rw [hbit]
    obtain h | h : b.toNat / 2 ^ i % 2 = 0 ∨ b.toNat / 2 ^ i % 2 = 1 := by omega
    · simp [h]
    · simp [h]

theorem toNat_powChain {red : Byte} {mul : Byte → Byte → Byte} (hmul : ∀ a b, mul a b = gmulLoop red b 8 0 a 0)
    (n : Nat) (p r : Byte) : (powChain mul n p r).toNat = natPowChain red.toNat n p.toNat r.toNat := by
  induction n generalizing p r with
  | zero => rfl
  | succ n ih => simp [powChain, natPowChain, ih, hmul, toNat_gmulLoop]

/-- `inv_soft` by the chain on natural numbers (R171). -/
theorem toNat_invSoft (u : Byte) : (invSoft u).toNat = natPowChain 0x1B 7 u.toNat 1 :=
  toNat_powChain (red := 0x1B) (fun _ _ => rfl) 7 u 1

/-! ### Byte substitutions (R156, R172, R173) -/

/-- The software S-box is the AES S-box table (R172). -/
theorem sboxSoft_eq_aesSbox (u : Byte) : sboxSoft u = aesSbox u := by
  have all : ∀ u : Byte, affine aAes 0x63 (BitVec.ofNat 8 (natPowChain 0x1B 7 u.toNat 1)) = aesSbox u := by
    decide +kernel
  rw [← all u, ← toNat_invSoft, BitVec.ofNat_toNat, BitVec.setWidth_eq, sboxSoft]

/-- Backend B's byte substitution is SBOX (R156). -/
theorem sbB_eq_sbox : ∀ x : Byte, sbB x = sbox x := by decide +kernel

/-- Backend C's byte substitution is SBOX, with gather by definition and without it by the AES S-box (R173). -/
theorem sbC_eq_sbox (gather : Bool) (x : Byte) : sbC gather x = sbox x := by
  cases gather with
  | true => rfl
  | false =>
    calc sbC false x = affine mOut cOut (sboxSoft (affine mIn cIn x)) := rfl
      _ = sbB x := by rw [sboxSoft_eq_aesSbox, sbB, intoAes, outOfAes]
      _ = sbox x := sbB_eq_sbox x

/-! ### Word and batch substitutions (R157, R158, R174, R176) -/

theorem tauC_eq_tauA (gather : Bool) (x : Word) : tauC gather x = tauA x := onBytes_congr (sbC_eq_sbox gather) x

/-- A byte is read back from the position ShiftRows moved it to (R153, R157). -/
theorem shiftSource_shiftPos : ∀ j : Fin 16, shiftSource (shiftPos j) = j := by decide

/-- One pass of the unit over bytes taken into AES space is SBOX on each of them (R157, R158). -/
theorem unitPass_intoAes (f : Fin 16 → Byte) (j : Fin 16) : unitPass (fun j => intoAes (f j)) j = sbox (f j) := by
  simp [unitPass, aesEncLast, shiftRows, subBytes, shiftSource_shiftPos, zeroKey, ← sbB_eq_sbox, sbB]

/-- Four lanes through one AES state are four words through τ_A (R158). -/
theorem tauB4_eq (q : Quad) : tauB4 q = ⟨tauA q.x0, tauA q.x1, tauA q.x2, tauA q.x3⟩ := by
  simp only [tauB4, quadOfAes, unitPass_intoAes]
  rfl

theorem batchTauB_eq_map (n : Nat) : ∀ ts : List Word, ts.length = 4 * n → batchTauB ts = ts.map tauA := by
  induction n with
  | zero => intro ts h; rw [List.length_eq_zero_iff.1 h]; rfl
  | succ n ih =>
    rintro (_ | ⟨t0, _ | ⟨t1, _ | ⟨t2, _ | ⟨t3, rest⟩⟩⟩⟩) h <;> simp only [List.length_cons, List.length_nil] at h
    case cons.cons.cons.cons => simp [batchTauB, tauB4_eq, ih rest (by omega)]
    all_goals omega

theorem batchTauC_eq_map (gather : Bool) (ts : List Word) : batchTauC gather ts = ts.map tauA :=
  List.map_congr_left fun x _ => tauC_eq_tauA gather x

/-! ### The data paths (R144, R158, R176) -/

/-- One round of a batch whose substitution is τ_A in every lane is the round function in every lane. -/
theorem batchRound_eq_map {batchTau : List Word → List Word} {lanes : List Quad}
    (h : ∀ ts : List Word, ts.length = lanes.length → batchTau ts = ts.map tauA) (rk : Word) :
    batchRound batchTau lanes rk = lanes.map (feistelRound tauA · rk) := by
  rw [batchRound, h _ (by simp), List.map_map, List.zipWith_map_right, List.zipWith_self]
  rfl

theorem encryptBatch_eq_map {batchTau : List Word → List Word} (rks : List Word) (lanes : List Quad)
    (h : ∀ ts : List Word, ts.length = lanes.length → batchTau ts = ts.map tauA) :
    encryptBatch batchTau rks lanes = lanes.map (encryptBlock tauA rks) := by
  have fold : ∀ (rks : List Word) (lanes' : List Quad), lanes'.length = lanes.length →
      rks.foldl (batchRound batchTau) lanes' = lanes'.map (rks.foldl (feistelRound tauA)) := by
    intro rks
    induction rks with
    | nil => simp
    | cons rk rks ih =>
      intro lanes' hlen
      rw [List.foldl_cons, batchRound_eq_map fun ts hts => h ts (hts.trans hlen), ih _ (by simp [hlen]), List.map_map]
      rfl
  rw [encryptBatch, fold rks lanes rfl, List.map_map]
  rfl

/-- Whatever the backend, a whole number of four-lane groups is encrypted block by block with τ_A (R129). -/
theorem transformBlocks_eq_map (b : Backend) (gather : Bool) (rks : List Word) (blocks : List Quad)
    (h : blocks.length % 4 = 0 ∨ b = .table) :
    transformBlocks b gather rks blocks = blocks.map (encryptBlock tauA rks) := by
  cases b with
  | table => rfl
  | aes =>
    have h4 : blocks.length % 4 = 0 := h.resolve_right nofun
    exact encryptBatch_eq_map rks blocks fun ts hts => batchTauB_eq_map (ts.length / 4) ts (by omega)
  | simd => exact encryptBatch_eq_map rks blocks fun ts _ => batchTauC_eq_map gather ts

end Sys2Proof.Machine
end

section
/-! SUPPORT. What a successful command leaves alone, field by field, and the obligations on the commands' frames
(spec/10_state.md R20 to R30). -/

namespace Sys2Proof.Machine

variable {i : Instr} {s t : State}

/-! ### Fields of `okResult` -/

@[simp] theorem okResult_cap (i : Instr) (s : State) : (okResult i s).cap = s.cap := by
  cases i with
  | keyinit len => simp only [okResult]
  | keyrel => simp only [okResult, apply_ite State.cap, ite_self]
  | _ => rfl

@[simp] theorem okResult_host (i : Instr) (s : State) : (okResult i s).host = s.host := by
  cases i with
  | keyinit len => simp only [okResult]
  | keyrel => simp only [okResult, apply_ite State.host, ite_self]
  | _ => rfl

@[simp] theorem okResult_returned (i : Instr) (s : State) : (okResult i s).returned = s.returned := by
  cases i with
  | keyinit len => simp only [okResult]
  | keyrel => simp only [okResult, apply_ite State.returned, ite_self]
  | _ => rfl

/-- BSEL is written by SELB alone (R30). -/
theorem okResult_bsel (h : ∀ b, i ≠ .selb b) : (okResult i s).bsel = s.bsel := by
  cases i with
  | selb b => exact absurd rfl (h b)
  | keyinit len => simp only [okResult]
  | keyrel => simp only [okResult, apply_ite State.bsel, ite_self]
  | _ => rfl

/-- RK, KV and the draw counter are written by KEYINIT and KEYREL alone (R25, R26, log 4). -/
theorem okResult_key (h : ∀ len, i ≠ .keyinit len) (h' : i ≠ .keyrel) :
    (okResult i s).rk = s.rk ∧ (okResult i s).kv = s.kv ∧ (okResult i s).draws = s.draws := by
  cases i with
  | keyinit len => exact absurd rfl (h len)
  | keyrel => exact absurd rfl h'
  | _ => exact ⟨rfl, rfl, rfl⟩

/-! ### Registers -/

theorem writeW_of_ne {r q : Reg} (v : Word) (h : q ≠ r) :
    (writeW s r v).w[q] = s.w[q] ∧ (writeW s r v).wWritten[q] = s.wWritten[q] := by
  have hv : r.val ≠ q.val := fun hq => h (Fin.ext hq.symm)
  exact ⟨Vector.getElem_set_ne r.isLt q.isLt hv, Vector.getElem_set_ne r.isLt q.isLt hv⟩

theorem writeWQuad_of_notMem_group {b q : Reg} (x : Quad) (h : q ∉ group b) :
    (writeWQuad s b x).w[q] = s.w[q] ∧ (writeWQuad s b x).wWritten[q] = s.wWritten[q] := by
  simp only [group, List.mem_cons, List.not_mem_nil, or_false, not_or] at h
  obtain ⟨h0, h1, h2, h3⟩ := h
  simp only [writeWQuad, writeW_of_ne _ h0, writeW_of_ne _ h1, writeW_of_ne _ h2, writeW_of_ne _ h3, and_self]

/-- A successful command writes no W register but its destinations (R21). -/
theorem okResult_register {r : Reg} (h : r ∉ destinations i) :
    (okResult i s).w[r] = s.w[r] ∧ (okResult i s).wWritten[r] = s.wWritten[r] := by
  cases i with
  | keyinit len => simp only [okResult, and_self]
  | keyrel => simp only [okResult, apply_ite State.w, apply_ite State.wWritten, ite_self, and_self]
  | selb | enc | dec => exact ⟨rfl, rfl⟩
  | aesl rd rs rt => exact writeWQuad_of_notMem_group _ h
  | suba | subb | subc | lin | link | rnd | krnd => exact writeW_of_ne _ (List.ne_of_not_mem_cons h)

/-! ### Bytes -/

/-- The blocks of an accepted ENC or DEC go through τ_A one by one, whatever the backend (R129). -/
theorem transformBlocks_dinBlocks {len : Fin 256} (rks : List Word)
    (h : (acceptedLengths s.bsel).contains len.val = true) :
    transformBlocks s.bsel s.cap.hasGather rks (dinBlocks s len.val) =
      (dinBlocks s len.val).map (encryptBlock tauA rks) := by
  have four_lanes : ∀ b : Backend, (acceptedLengths b).contains len.val = true →
      len.val / 16 % 4 = 0 ∨ b = .table := by
    rintro (_ | _ | _) hb
    · exact .inr rfl
    all_goals
      have : len.val = 128 := by simpa [acceptedLengths] using hb
      exact .inl (by omega)
  exact transformBlocks_eq_map _ _ _ _ (by simpa [dinBlocks] using four_lanes _ h)

/-- The memory an accepted ENC or DEC leaves. -/
def cipherMem (rks : List Word) (len : Fin 256) (s : State) : Memory :=
  writeQuads s.mem doutBase ((dinBlocks s len.val).map (encryptBlock tauA rks))

/-- An accepted ENC or DEC writes `DOUT[0 .. len-1]` and nothing else (R24). -/
theorem byteAt_cipherMem_of_not_dout (rks : List Word) {len : Fin 256} {off : Nat}
    (h : ¬ (doutBase ≤ off ∧ off < doutBase + len.val)) : byteAt (cipherMem rks len s) off = byteAt s.mem off := by
  rw [cipherMem, byteAt_writeQuads, dif_neg]
  simp only [dinBlocks, List.length_map, List.length_range]
  omega

theorem okResult_enc {len : Fin 256} (h : errorOf (.enc len) s = .ok) :
    okResult (.enc len) s = { s with mem := cipherMem s.rk.toList len s, err := .ok } := by
  rw [okResult, cipherMem, transformBlocks_dinBlocks _ (errorOf_enc_eq_ok_iff.1 h).1]

theorem okResult_dec {len : Fin 256} (h : errorOf (.dec len) s = .ok) :
    okResult (.dec len) s = { s with mem := cipherMem s.rk.toList.reverse len s, err := .ok } := by
  rw [okResult, cipherMem, transformBlocks_dinBlocks _ (errorOf_enc_eq_ok_iff.1 h).1]

theorem mem_doutBytes_iff {len off : Nat} :
    off ∈ (List.range len).map (doutBase + ·) ↔ doutBase ≤ off ∧ off < doutBase + len := by
  simp only [List.mem_map, List.mem_range]
  exact ⟨by rintro ⟨k, hk, rfl⟩; omega, fun ⟨h1, h2⟩ => ⟨off - doutBase, by omega, by omega⟩⟩

/-- A successful command writes no buffer byte but the output of ENC and DEC (R22, R23, R24). -/
theorem okResult_byte {off : Nat} (he : errorOf i s = .ok) (h : off ∉ bufferWrites i) :
    byteAt (okResult i s).mem off = byteAt s.mem off := by
  cases i with
  | enc len =>
    rw [okResult_enc he]
    exact byteAt_cipherMem_of_not_dout _ (mt mem_doutBytes_iff.2 h)
  | dec len =>
    rw [okResult_dec he]
    exact byteAt_cipherMem_of_not_dout _ (mt mem_doutBytes_iff.2 h)
  | keyinit len => simp only [okResult]
  | keyrel => simp only [okResult, apply_ite State.mem, ite_self]
  | _ => rfl

/-! ### The obligations on the commands' frames -/

/-- Settles O40, by the two ends of a command. -/
theorem commandsKeepOtherRegisters : Obligations.CommandsKeepOtherRegisters := by
  intro i s t r h hr
  obtain ⟨-, rfl⟩ | ⟨-, rfl⟩ := exec_next_cases h
  · exact ⟨rfl, rfl⟩
  · exact okResult_register hr

/-- Settles O41, by the two ends of a command. -/
theorem commandsKeepOtherBytes : Obligations.CommandsKeepOtherBytes := by
  intro i s t off h hoff
  obtain ⟨-, rfl⟩ | ⟨he, rfl⟩ := exec_next_cases h
  · rfl
  · exact okResult_byte he hoff

/-- Settles O42, by the two ends of a command. -/
theorem commandsKeepControlState : Obligations.CommandsKeepControlState := by
  intro i s t h
  obtain ⟨-, rfl⟩ | ⟨-, rfl⟩ := exec_next_cases h
  · exact ⟨rfl, rfl, rfl, fun _ => rfl, fun _ _ => ⟨rfl, rfl, rfl⟩⟩
  · exact ⟨okResult_cap i s, okResult_host i s, okResult_returned i s, okResult_bsel, okResult_key⟩

end Sys2Proof.Machine
end

section
/-! SUPPORT. Everything a step can do to the state the host cannot write, and the obligations on every step of the
machine (spec/10_state.md R24 to R37). -/

namespace Sys2Proof.Machine

variable {s t : State}

/-- CAP, BSEL, RK, KV, the draw counter and the bytes from DOUT on: what changes only by a successful command or
by a platform reset. -/
structure KeepsDeviceState (s t : State) : Prop where
  cap : t.cap = s.cap
  bsel : t.bsel = s.bsel
  rk : t.rk = s.rk
  kv : t.kv = s.kv
  draws : t.draws = s.draws
  dout : ∀ off, 0x180 ≤ off → byteAt t.mem off = byteAt s.mem off

/-- A command write (R27) that spells a command succeeds with `okResult` or changes STATUS.ERR alone, and one
that spells none changes STATUS.ERR alone. -/
theorem issue_next_cases {v : Word} (h : issue v s = .next t) :
    (∃ i, decode v = .ok i ∧ errorOf i s = .ok ∧ t = okResult i s) ∨ ∃ c, t = { s with err := c } := by
  cases hd : decode v with
  | error e =>
    rw [issue_of_illegal hd] at h
    exact .inr ⟨.illegalCmd, (Host.Outcome.next.inj h).symm⟩
  | ok i =>
    rw [issue_of_decode hd] at h
    obtain ⟨-, ht⟩ | ⟨he, ht⟩ := exec_next_cases h
    · exact .inr ⟨_, ht⟩
    · exact .inl ⟨i, rfl, he, ht⟩

/-- Everything a step can do: leave the device's own state alone, reset it, or complete a command. -/
theorem step_next_cases (h : step s = .next t) :
    KeepsDeviceState s t ∨
    ∃ e rest, s.host = e :: rest ∧
      ((e = .reset ∧ t = platformReset { s with host := rest }) ∨
        ∃ i, issues e i ∧ errorOf i s = .ok ∧ t = okResult i { s with host := rest }) := by
  cases hs : s.host with
  | nil =>
    rw [step_nil hs] at h
    obtain rfl := Host.Outcome.next.inj h
    exact .inl ⟨rfl, rfl, rfl, rfl, rfl, fun _ _ => rfl⟩
  | cons e rest =>
    rw [step_cons hs] at h
    obtain ⟨v, rfl⟩ | ⟨off, v, ⟨-, hlt, h4, -⟩, rfl⟩ | ⟨off, v, ⟨-, hlt, -⟩, rfl⟩ | ⟨r, v, rfl⟩ | rfl |
      ⟨v, rfl, hv⟩ | ⟨rfl, rfl⟩ := hostEvent_next_cases h
    · exact .inl ⟨rfl, rfl, rfl, rfl, rfl, fun _ _ => rfl⟩
    · refine .inl ⟨rfl, rfl, rfl, rfl, rfl, fun a ha => ?_⟩
      rw [byteAt_writeWord, if_neg (by omega)]
    · exact .inl ⟨rfl, rfl, rfl, rfl, rfl, fun a ha => byteAt_setByte_ne _ v (by omega)⟩
    · exact .inl ⟨rfl, rfl, rfl, rfl, rfl, fun _ _ => rfl⟩
    · exact .inl ⟨rfl, rfl, rfl, rfl, rfl, fun _ _ => rfl⟩
    · obtain ⟨i, hd, he, rfl⟩ | ⟨c, rfl⟩ := issue_next_cases hv
      · exact .inr ⟨_, rest, rfl, .inr ⟨i, ⟨v, rfl, hd⟩, he, rfl⟩⟩
      · exact .inl ⟨rfl, rfl, rfl, rfl, rfl, fun _ _ => rfl⟩
    · exact .inr ⟨.reset, rest, rfl, .inl ⟨rfl, rfl⟩⟩

/-! ### Invariants -/

/-- A SELB of Backend B passes its checks only where the AES unit is present (R190). -/
theorem hasAes_of_selb_ok (h : errorOf (.selb .aes) s = .ok) : s.cap.hasAes = true := by
  simpa [errorOf_selb] using h

theorem okResult_backendPresent {i : Instr} (hs : s.backendPresent) (he : errorOf i s = .ok) :
    (okResult i s).backendPresent := by
  intro hb
  rw [okResult_cap]
  by_cases hi : ∃ b, i = .selb b
  · obtain ⟨b, rfl⟩ := hi
    obtain rfl : b = .aes := hb
    exact hasAes_of_selb_ok he
  · rw [okResult_bsel (not_exists.1 hi)] at hb
    exact hs hb

/-- Settles O44: of all steps only SELB can select Backend B, and it checks CAP. -/
theorem stepKeepsBackendPresent : Obligations.StepKeepsBackendPresent := by
  intro s t hs h
  obtain hk | ⟨e, rest, -, ⟨-, rfl⟩ | ⟨i, -, he, rfl⟩⟩ := step_next_cases h
  · exact ⟨by rw [State.backendPresent, hk.bsel, hk.cap]; exact hs, hk.cap⟩
  · exact ⟨nofun, rfl⟩
  · exact ⟨okResult_backendPresent (s := { s with host := rest }) hs he, okResult_cap _ _⟩

theorem okResult_keyScheduled (i : Instr) (hs : s.keyScheduled) : (okResult i s).keyScheduled := by
  by_cases hinit : ∃ len, i = .keyinit len
  · obtain ⟨len, rfl⟩ := hinit
    exact fun _ => ⟨quadFrom (byteOrZero s.mem) keyBase, by simp only [okResult]⟩
  by_cases hrel : i = .keyrel
  · subst hrel
    intro hkv
    cases hk : s.kv <;> simp [okResult, hk] at hkv
  · obtain ⟨hrk, hkv, -⟩ := okResult_key (s := s) (not_exists.1 hinit) hrel
    rw [State.keyScheduled, hrk, hkv]
    exact hs

/-- Settles O45: KEYINIT stores a key schedule, KEYREL and reset clear KV, and nothing else writes RK or KV. -/
theorem stepKeepsKeyScheduled : Obligations.StepKeepsKeyScheduled := by
  intro s t hs h
  obtain hk | ⟨e, rest, -, ⟨-, rfl⟩ | ⟨i, -, -, rfl⟩⟩ := step_next_cases h
  · rw [State.keyScheduled, hk.kv, hk.rk]; exact hs
  · exact nofun
  · exact okResult_keyScheduled (s := { s with host := rest }) i hs

/-- Settles O46: nothing is listed, Backend A is selected and KV = 0 at reset (R38). -/
theorem resetMeetsTheInvariants : Obligations.ResetMeetsTheInvariants :=
  fun p => ⟨⟨reset_mem_wf p, nofun⟩, nofun, nofun⟩

/-! ### Who writes what -/

/-- Settles O47, by the cases of a step: of the commands SELB alone writes BSEL. -/
theorem onlySelbAndResetChangeBsel : Obligations.OnlySelbAndResetChangeBsel := by
  intro s t h hne
  obtain hk | ⟨e, rest, hs, ⟨he, -⟩ | ⟨i, hi, he, rfl⟩⟩ := step_next_cases h
  · exact absurd hk.bsel hne
  · exact ⟨e, rest, hs, .inl he⟩
  · by_cases hb : ∃ b, i = .selb b
    · obtain ⟨b, rfl⟩ := hb
      exact ⟨e, rest, hs, .inr ⟨b, hi, he, rfl⟩⟩
    · exact absurd (okResult_bsel (not_exists.1 hb)) hne

/-- Settles O48, by the cases of a step: of the commands KEYINIT 16 and KEYREL alone write RK or KV. -/
theorem onlyKeyCommandsAndResetChangeTheKey : Obligations.OnlyKeyCommandsAndResetChangeTheKey := by
  intro s t h hne
  obtain hk | ⟨e, rest, hs, ⟨he, -⟩ | ⟨i, hi, he, rfl⟩⟩ := step_next_cases h
  · exact absurd hne (by simp [hk.rk, hk.kv])
  · exact ⟨e, rest, hs, .inl he⟩
  · refine ⟨e, rest, hs, .inr ?_⟩
    by_cases hinit : ∃ len, i = .keyinit len
    · obtain ⟨len, rfl⟩ := hinit
      obtain rfl : len = 16 := Fin.ext (by rw [errorOf_keyinit] at he; split_ifs at he; omega)
      exact .inl hi
    by_cases hrel : i = .keyrel
    · exact .inr (hrel ▸ hi)
    · obtain ⟨hrk, hkv, -⟩ := okResult_key (s := { s with host := rest }) (not_exists.1 hinit) hrel
      exact absurd hne (by simp [hrk, hkv])

/-- Settles O49, by the cases of a step: of the commands ENC and DEC alone write a buffer. -/
theorem onlyEncDecAndResetChangeDout : Obligations.OnlyEncDecAndResetChangeDout := by
  intro s t off h hoff hne
  obtain hk | ⟨e, rest, hs, ⟨he, -⟩ | ⟨i, hi, he, rfl⟩⟩ := step_next_cases h
  · exact absurd (hk.dout off hoff) hne
  · exact ⟨e, rest, hs, .inl he⟩
  · refine ⟨e, rest, hs, .inr ?_⟩
    have hw : bufferWrites i ≠ [] := fun hnil =>
      hne (okResult_byte (s := { s with host := rest }) he (by simp [hnil]))
    cases i with
    | enc len => exact ⟨len, .inl ⟨hi, he⟩⟩
    | dec len => exact ⟨len, .inr ⟨hi, he⟩⟩
    | _ => exact absurd rfl hw

end Sys2Proof.Machine
end

section
/-! SUPPORT. Two runs side by side, on states that differ in W registers and RK alone: how every event keeps a
relation between them, and the obligations on isolation (spec/10_state.md R25, R40, spec/40_key_schedule.md R110). -/

namespace Sys2Proof.Machine

variable {s t : State}

/-- A relation between two states that differ in W registers and RK alone, and that the updates every event is
made of keep. -/
structure EventStable (R : State → State → Prop) : Prop where
  refl : ∀ s, R s s
  frame : ∀ {s t}, R s t → t = { s with w := t.w, rk := t.rk }
  setErr : ∀ {s t} c, R s t → R { s with err := c } { t with err := c }
  setMem : ∀ {s t} m, R s t → R { s with mem := m } { t with mem := m }
  addReturned : ∀ {s t} v, R s t →
    R { s with returned := s.returned ++ [v] } { t with returned := t.returned ++ [v] }
  setHost : ∀ {s t} es, R s t → R { s with host := es } { t with host := es }
  setW : ∀ {s t} r v, R s t → R (writeW s r v) (writeW t r v)

namespace EventStable

variable {R : State → State → Prop} (hR : EventStable R)
include hR

theorem setWQuad (b : Reg) (q : Quad) (h : R s t) : R (writeWQuad s b q) (writeWQuad t b q) :=
  hR.setW _ _ (hR.setW _ _ (hR.setW _ _ (hR.setW _ _ h)))

theorem errorOf_eq (i : Instr) (h : R s t) : errorOf i t = errorOf i s := by
  rw [hR.frame h]; rfl

theorem platformReset_eq (h : R s t) : platformReset t = platformReset s := by
  rw [hR.frame h]; rfl

/-- A command ends alike in both runs if its success does: its checks and its buffer read do not see the
difference. -/
theorem sameOutcome_exec {i : Instr} (h : R s t) (hok : errorOf i s = .ok → R (okResult i s) (okResult i t)) :
    SameOutcome R (exec i s) (exec i t) := by
  have herr := hR.errorOf_eq i h
  by_cases he : errorOf i s = .ok
  · have hmem : t.mem = s.mem := by rw [hR.frame h]
    rw [exec_of_ok he, exec_of_ok (herr.trans he), hmem]
    cases bufferReadOf i s.mem with
    | error f => exact rfl
    | ok qs => exact hok he
  · rw [exec_of_error he, exec_of_error (herr ▸ he), herr]
    exact hR.setErr _ h

/-- A read ends alike in both runs if what it reads does. -/
theorem sameOutcome_read {α : Type} {r r' : Except Fault α} (hr : r' = r) (mk : α → ReadValue) (h : R s t) :
    SameOutcome R (withRead r fun v => giveBack (mk v) s) (withRead r' fun v => giveBack (mk v) t) := by
  subst hr
  cases r' with
  | error f => exact rfl
  | ok v => exact hR.addReturned _ h

theorem wordAt_eq {r : Region} {off : Nat} (h : R s t) (hw : r = .w → readW t (wIndex off) = readW s (wIndex off)) :
    wordAt r off t = wordAt r off s := by
  cases r with
  | w => exact congrArg Except.ok (hw rfl)
  | _ => rw [hR.frame h]; rfl

theorem sameOutcome_wordWriteAt {r : Region} (off : Nat) (v : Word) (h : R s t)
    (hcmd : r = .cmd → SameOutcome R (issue v s) (issue v t)) :
    SameOutcome R (wordWriteAt r off v s) (wordWriteAt r off v t) := by
  have hmem : t.mem = s.mem := by rw [hR.frame h]
  cases r with
  | cmd => exact hcmd rfl
  | key | din =>
    simp only [wordWriteAt, hmem]
    exact hR.setMem _ h
  | w => exact hR.setW _ _ h
  | _ => exact h

theorem sameOutcome_byteWriteAt (r : Region) (off : Nat) (v : Byte) (h : R s t) :
    SameOutcome R (byteWriteAt r off v s) (byteWriteAt r off v t) := by
  have hmem : t.mem = s.mem := by rw [hR.frame h]
  cases r with
  | key | din =>
    simp only [byteWriteAt, hmem]
    exact hR.setMem _ h
  | _ => exact h

theorem sameOutcome_issue {v : Word} (h : R s t)
    (hcmd : ∀ i, decode v = .ok i → errorOf i s = .ok → R (okResult i s) (okResult i t)) :
    SameOutcome R (issue v s) (issue v t) := by
  cases hd : decode v with
  | error e => rw [issue_of_illegal hd, issue_of_illegal hd]; exact hR.setErr _ h
  | ok i => rw [issue_of_decode hd, issue_of_decode hd]; exact hR.sameOutcome_exec h (hcmd i hd)

/-- An event ends alike in both runs if the operand register it reads holds the same value and the command it
issues succeeds alike. -/
theorem sameOutcome_hostEvent {e : HostEvent} (h : R s t)
    (hread : ∀ off, e = .rdW off → admitWord off = .ok .w → readW t (wIndex off) = readW s (wIndex off))
    (hcmd : ∀ i, issues e i → errorOf i s = .ok → R (okResult i s) (okResult i t)) :
    SameOutcome R (hostEvent e s) (hostEvent e t) := by
  cases e with
  | rdW off =>
    simp only [hostEvent]
    cases ha : admitWord off with
    | error x => exact rfl
    | ok r => exact hR.sameOutcome_read (hR.wordAt_eq h fun hr => hread off rfl (hr ▸ ha)) .word h
  | rdB off =>
    simp only [hostEvent]
    cases ha : admitByte off with
    | error x => exact rfl
    | ok r =>
      refine hR.sameOutcome_read ?_ .byte h
      rw [hR.frame h]; rfl
  | wrW off v =>
    simp only [hostEvent]
    cases ha : admitWord off with
    | error x => exact rfl
    | ok r =>
      refine hR.sameOutcome_wordWriteAt off v h ?_
      rintro rfl
      obtain ⟨hreg, h4⟩ := admitWord_eq_ok_iff.1 ha
      have hlt := regionOf_eq_cmd.1 hreg
      obtain rfl : off = 0 := by omega
      exact hR.sameOutcome_issue h fun i hd => hcmd i ⟨v, rfl, hd⟩
  | wrB off v =>
    simp only [hostEvent]
    cases ha : admitByte off with
    | error x => exact rfl
    | ok r => exact hR.sameOutcome_byteWriteAt r off v h
  | rdOdd w off => exact rfl
  | wrOdd w off => exact rfl
  | reset =>
    show R (platformReset s) (platformReset t)
    rw [hR.platformReset_eq h]
    exact hR.refl _

/-- A step ends alike in both runs under the same two conditions. -/
theorem sameOutcome_step (h : R s t)
    (hread : ∀ off rest, s.host = .rdW off :: rest → admitWord off = .ok .w →
      readW t (wIndex off) = readW s (wIndex off))
    (hcmd : ∀ e rest i, s.host = e :: rest → issues e i → errorOf i s = .ok →
      R (okResult i { s with host := rest }) (okResult i { t with host := rest })) :
    SameOutcome R (step s) (step t) := by
  have hhost : t.host = s.host := by rw [hR.frame h]
  cases hs : s.host with
  | nil => rw [step_nil hs, step_nil (hhost.trans hs)]; exact h
  | cons e rest =>
    rw [step_cons hs, step_cons (hhost.trans hs)]
    refine hR.sameOutcome_hostEvent (hR.setHost rest h) ?_ fun i => hcmd e rest i hs
    rintro off rfl
    exact hread off rest hs

end EventStable

/-! ### RK is opaque (R110) -/

/-- Two states that differ at most in RK. -/
def DiffersInRk (s t : State) : Prop := t = { s with rk := t.rk }

theorem differsInRk_eventStable : EventStable DiffersInRk where
  refl _ := rfl
  frame h := by rw [h]
  setErr _ h := by rw [h]; rfl
  setMem _ h := by rw [h]; rfl
  addReturned _ h := by rw [h]; rfl
  setHost _ h := by rw [h]; rfl
  setW _ _ h := by rw [h]; rfl

/-- A command other than ENC and DEC succeeds alike whatever RK holds, up to RK itself. -/
theorem okResult_differsInRk {i : Instr} (hne : ∀ len, i ≠ .enc len ∧ i ≠ .dec len) (rk : Vector Word 32) (s : State) :
    DiffersInRk (okResult i s) (okResult i { s with rk := rk }) := by
  have hR := differsInRk_eventStable
  cases i with
  | enc len => exact absurd rfl (hne len).1
  | dec len => exact absurd rfl (hne len).2
  | keyinit len => simp only [DiffersInRk, okResult]
  | keyrel => cases hk : s.kv <;> simp [DiffersInRk, okResult, hk]
  | selb b => rfl
  | suba | subb | subc | lin | link | rnd | krnd => exact hR.setErr .ok (hR.setW _ _ rfl)
  | aesl rd rs rt => exact hR.setErr .ok (hR.setWQuad _ _ rfl)

/-- Settles O60: no event but a command that is ENC or DEC reads RK. -/
theorem rkIsOpaque : Obligations.RkIsOpaque := by
  intro s rk hno
  refine differsInRk_eventStable.sameOutcome_step (s := s) (t := { s with rk := rk }) rfl (fun _ _ _ _ => rfl) ?_
  intro e rest i hs hi _
  refine okResult_differsInRk (fun len => ⟨?_, ?_⟩) rk _
  · rintro rfl; exact (hno e rest len hs).1 hi
  · rintro rfl; exact (hno e rest len hs).2 hi

/-! ### Unwritten registers never matter (R40, log 1, log 2) -/

namespace AgreeOnWritten

/-- A register that has been written is read alike. -/
theorem readW_eq (h : AgreeOnWritten s t) {r : Reg} (hr : s.wWritten[r] = true) : readW t r = readW s r :=
  h.2.1 r hr

theorem readWQuad_eq (h : AgreeOnWritten s t) {b : Reg} (hb : ∀ r ∈ group b, s.wWritten[r] = true) :
    readWQuad t b = readWQuad s b := by
  simp only [group, List.forall_mem_cons] at hb
  obtain ⟨h0, h1, h2, h3, -⟩ := hb
  simp only [readWQuad, h.readW_eq h0, h.readW_eq h1, h.readW_eq h2, h.readW_eq h3]

end AgreeOnWritten

theorem agreeOnWritten_writeW (h : AgreeOnWritten s t) (r : Reg) (v : Word) :
    AgreeOnWritten (writeW s r v) (writeW t r v) := by
  obtain ⟨hst, hw, hk⟩ := h
  refine ⟨by rw [hst]; rfl, fun q hq => ?_, hk⟩
  by_cases hqr : q = r
  · subst hqr; simp
  · rw [(writeW_of_ne v hqr).1, (writeW_of_ne v hqr).1]
    rw [(writeW_of_ne v hqr).2] at hq
    exact hw q hq

theorem agreeOnWritten_eventStable : EventStable AgreeOnWritten where
  refl _ := ⟨rfl, fun _ _ => rfl, fun _ => rfl⟩
  frame h := by rw [h.1]
  setErr _ h := ⟨by rw [h.1], h.2⟩
  setMem _ h := ⟨by rw [h.1], h.2⟩
  addReturned _ h := ⟨by rw [h.1], h.2⟩
  setHost _ h := ⟨by rw [h.1], h.2⟩
  setW r v h := agreeOnWritten_writeW h r v

/-- Loading the same subkeys, whether or not they make a CipherKey, keeps the agreement. -/
theorem agreeOnWritten_setKey (h : AgreeOnWritten s t) (rk : Vector Word 32) (kv : Bool) :
    AgreeOnWritten { s with rk := rk, kv := kv } { t with rk := rk, kv := kv } :=
  ⟨by rw [h.1], h.2.1, fun _ => rfl⟩

theorem agreeOnWritten_setDraws (h : AgreeOnWritten s t) (n : Nat) :
    AgreeOnWritten { s with draws := n } { t with draws := n } :=
  ⟨by rw [h.1], h.2⟩

theorem cipherMem_congr {rks rks' : List Word} {len : Fin 256} (hmem : t.mem = s.mem) (hrks : rks' = rks) :
    cipherMem rks' len t = cipherMem rks len s := by
  simp only [cipherMem, dinBlocks, hmem, hrks]

/-- A command whose source registers have all been written succeeds alike. -/
theorem okResult_agreeOnWritten {i : Instr} (h : AgreeOnWritten s t) (he : errorOf i s = .ok)
    (hsrc : ∀ r ∈ sources i, s.wWritten[r] = true) : AgreeOnWritten (okResult i s) (okResult i t) := by
  have hR := agreeOnWritten_eventStable
  have het : errorOf i t = .ok := (hR.errorOf_eq i h).trans he
  have hmem : t.mem = s.mem := by rw [h.1]
  have hkv : t.kv = s.kv := by rw [h.1]
  have hdraws : t.draws = s.draws := by rw [h.1]
  have hcap : t.cap = s.cap := by rw [h.1]
  cases i with
  | keyinit len =>
    have hkey := agreeOnWritten_setKey h (keySchedule (quadFrom (byteOrZero s.mem) keyBase)) true
    simpa only [okResult, hmem] using hR.setErr .ok hkey
  | keyrel =>
    cases hk : s.kv with
    | true =>
      have hkey := agreeOnWritten_setKey h (Vector.ofFn (Config.releasedSubkey s.draws)) false
      simpa only [okResult, hkv, hk, hdraws, if_true] using
        hR.setErr .ok (agreeOnWritten_setDraws hkey (s.draws + 1))
    | false => simpa only [okResult, hkv, hk, Bool.false_eq_true, if_false] using hR.setErr .ok h
  | selb b => exact ⟨by simp only [okResult]; rw [h.1], h.2⟩
  | enc len =>
    have hrk : t.rk = s.rk := h.2.2 (errorOf_enc_eq_ok_iff.1 he).2
    rw [okResult_enc he, okResult_enc het, cipherMem_congr (rks := s.rk.toList) hmem (by rw [hrk])]
    exact hR.setErr .ok (hR.setMem (cipherMem s.rk.toList len s) h)
  | dec len =>
    have hrk : t.rk = s.rk := h.2.2 (errorOf_enc_eq_ok_iff.1 he).2
    rw [okResult_dec he, okResult_dec het, cipherMem_congr (rks := s.rk.toList.reverse) hmem (by rw [hrk])]
    exact hR.setErr .ok (hR.setMem (cipherMem s.rk.toList.reverse len s) h)
  | suba rd rs | subb rd rs | subc rd rs | lin rd rs | link rd rs =>
    simp only [okResult, hcap, h.readW_eq (hsrc rs List.mem_cons_self)]
    exact hR.setErr _ (hR.setW _ _ h)
  | rnd rd rs rt =>
    obtain ⟨hrt, hrs⟩ := List.forall_mem_cons.1 hsrc
    simp only [okResult, h.readWQuad_eq hrs, h.readW_eq hrt]
    exact hR.setErr _ (hR.setW _ _ h)
  | krnd rd rs c =>
    simp only [okResult, h.readWQuad_eq hsrc]
    exact hR.setErr _ (hR.setW _ _ h)
  | aesl rd rs rt =>
    obtain ⟨hrs, hrt⟩ := List.forall_mem_append.1 hsrc
    simp only [okResult, h.readWQuad_eq hrs, h.readWQuad_eq hrt]
    exact hR.setErr _ (hR.setWQuad _ _ h)

/-- The register a step's host read reads is one of `registerReads` (R51). -/
theorem mem_registerReads_of_rdW {off : Nat} (s : State) (ha : admitWord off = .ok .w) :
    wIndex off ∈ registerReads (.rdW off) s := by
  obtain ⟨hreg, h4⟩ := admitWord_eq_ok_iff.1 ha
  obtain ⟨hlo, hhi⟩ := regionOf_eq_w.1 hreg
  simp [registerReads, wordOffset, h4, hlo, hhi, show off < 0x200 by omega, wIndex]

/-- The sources of a command that passes its checks are among `registerReads` (R209). -/
theorem registerReads_of_issues {e : HostEvent} {i : Instr} (hi : issues e i) (he : errorOf i s = .ok) :
    registerReads e s = sources i := by
  obtain ⟨v, hc, hd⟩ := hi
  cases e with
  | wrW off w =>
    simp only [commandOf, Option.ite_none_right_eq_some, Option.some.injEq] at hc
    obtain ⟨rfl, rfl⟩ := hc
    simp [registerReads, hd, he]
  | _ => cases hc

/-- A step that reads no unwritten register reads written ones only. -/
theorem wWritten_of_registerReads {e : HostEvent} {rest : List HostEvent} (hno : readsUnwrittenW s = false)
    (hs : s.host = e :: rest) {r : Reg} (hr : r ∈ registerReads e s) : s.wWritten[r] = true := by
  rw [readsUnwrittenW, hs] at hno
  simpa using List.any_eq_false.1 hno r hr

/-- Settles O59: what a step reads of the registers has been written, so it is the same in both runs. -/
theorem unwrittenRegistersNeverMatter : Obligations.UnwrittenRegistersNeverMatter := by
  intro s t h hno
  refine agreeOnWritten_eventStable.sameOutcome_step h ?_ ?_
  · intro off rest hs ha
    exact h.readW_eq (wWritten_of_registerReads hno hs (mem_registerReads_of_rdW s ha))
  · intro e rest i hs hi he
    refine okResult_agreeOnWritten (agreeOnWritten_eventStable.setHost rest h) he fun r hr => ?_
    exact wWritten_of_registerReads hno hs (registerReads_of_issues hi he ▸ hr)

end Sys2Proof.Machine
end

section
/-! SUPPORT. ENC and DEC as the 32-round recursion on the words of each block (spec/41_round_function.md R122 to
R127), and the obligations on them. -/

namespace Sys2Proof.Machine

variable {s : State}

/-! ### The Feistel words (R35, R123) -/

/-- The window `(X_n, X_{n+1}, X_{n+2}, X_{n+3})` after `n` rounds with the subkeys `rk` (R35). -/
def feistelWindow (rk : Nat → Word) (p : Quad) : Nat → Quad
  | 0 => p
  | n + 1 => feistelRound tauA (feistelWindow rk p n) (rk n)

/-- The Feistel word `X_n` (R35). -/
def feistelWord (rk : Nat → Word) (p : Quad) (n : Nat) : Word := (feistelWindow rk p n).x0

/-- The window after `n` rounds holds the Feistel words from `X_n` on. -/
theorem feistelWindow_eq (rk : Nat → Word) (p : Quad) (n : Nat) :
    feistelWindow rk p n = ⟨feistelWord rk p n, feistelWord rk p (n + 1), feistelWord rk p (n + 2),
      feistelWord rk p (n + 3)⟩ := rfl

/-- The first four Feistel words are the block's (R123). -/
theorem feistelWord_of_lt_four (rk : Nat → Word) (p : Quad) {j : Nat} (h : j < 4) :
    feistelWord rk p j = quadWord p j := by
  obtain rfl | rfl | rfl | rfl : j = 0 ∨ j = 1 ∨ j = 2 ∨ j = 3 := by omega
  all_goals rfl

/-- The recursion of R122. -/
theorem feistelWord_add_four (rk : Nat → Word) (p : Quad) (n : Nat) :
    feistelWord rk p (n + 4) = feistelWord rk p n ^^^
      lin (tauA (feistelWord rk p (n + 1) ^^^ feistelWord rk p (n + 2) ^^^ feistelWord rk p (n + 3) ^^^ rk n)) := rfl

/-- Rounds folded over a list of subkeys are the window after that many rounds. -/
theorem foldl_feistelRound (rks : List Word) (p : Quad) :
    rks.foldl (feistelRound tauA) p = feistelWindow (rks.getD · 0) p rks.length := by
  have take (n : Nat) (hn : n ≤ rks.length) :
      (rks.take n).foldl (feistelRound tauA) p = feistelWindow (rks.getD · 0) p n := by
    induction n with
    | zero => rfl
    | succ n ih =>
      rw [List.take_succ_eq_append_getElem hn, List.foldl_append, ih (by omega), feistelWindow,
        List.getD_eq_getElem _ _ hn]
      rfl
  simpa using take rks.length le_rfl

/-- Block encryption with 32 subkeys answers `(X35, X34, X33, X32)` (R123). -/
theorem quadWord_encryptBlock {rks : List Word} (h : rks.length = 32) (p : Quad) {m : Nat} (hm : m < 4) :
    quadWord (encryptBlock tauA rks p) m = feistelWord (rks.getD · 0) p (35 - m) := by
  rw [encryptBlock, foldl_feistelRound, h, feistelWindow_eq]
  obtain rfl | rfl | rfl | rfl : m = 0 ∨ m = 1 ∨ m = 2 ∨ m = 3 := by omega
  all_goals rfl

/-! ### The bytes of DIN and DOUT (R54, R55) -/

theorem quadWord_quadFrom (byte : Nat → Byte) (off : Nat) {j : Nat} (h : j < 4) :
    quadWord (quadFrom byte off) j = wordFrom byte (off + 4 * j) := by
  obtain rfl | rfl | rfl | rfl : j = 0 ∨ j = 1 ∨ j = 2 ∨ j = 3 := by omega
  all_goals rfl

/-- The blocks of DIN are those of the bytes it holds. -/
theorem dinBlocks_eq {byte : Nat → Byte} {len : Nat} (h : Holds s.mem byte dinBase len) :
    dinBlocks s len = (List.range (len / 16)).map fun k => quadFrom byte (dinBase + 16 * k) := by
  have hread := readQuads_of_written (m := s.mem) (byte := byte) (len / 16) dinBase
    fun k hk => h k (by omega)
  obtain ⟨-, hok⟩ | ⟨k, -, -, herr⟩ := readQuads_cases s.mem dinBase (len / 16)
  · exact Except.ok.inj (hok.symm.trans hread)
  · rw [hread] at herr; cases herr

/-- Byte `j` of word `m` of block `k` of the output. -/
theorem byteAt_cipherMem {len : Fin 256} {byte : Nat → Byte} (rks : List Word) (h : Holds s.mem byte dinBase len.val)
    {k m j : Nat} (hk : k < len.val / 16) (hm : m < 4) (hj : j < 4) :
    byteAt (cipherMem rks len s) (doutBase + 16 * k + 4 * m + j) =
      some (byteOf j (quadWord (encryptBlock tauA rks (quadFrom byte (dinBase + 16 * k))) m)) := by
  have hoff : doutBase + 16 * k + 4 * m + j - doutBase = 16 * k + 4 * m + j := by omega
  rw [cipherMem, dinBlocks_eq h, byteAt_writeQuads, dif_pos (by simp; omega)]
  simp only [hoff, List.getElem_map, List.getElem_range, show (16 * k + 4 * m + j) / 16 = k by omega,
    show (16 * k + 4 * m + j) % 4 = j by omega, show (16 * k + 4 * m + j) % 16 / 4 = m by omega]

/-! ### The obligations on ENC and DEC -/

/-- The state an accepted ENC or DEC with 32 subkeys leaves, block by block: what R126 and R127 share. -/
theorem cipherMem_encrypts {len : Fin 256} {din : Nat → Byte} {rks : List Word} {rk : Fin 32 → Word}
    (hlen : rks.length = 32) (hrk : ∀ i : Fin 32, rks.getD i 0 = rk i) (hd : Holds s.mem din dinBase len.val)
    {k : Nat} (hk : k < len.val / 16) :
    ∃ X : Nat → Word,
      (∀ j, j < 4 → X j = wordFrom din (dinBase + 16 * k + 4 * j)) ∧
      (∀ i : Fin 32, X (i + 4) = X i ^^^ lin (tauA (X (i + 1) ^^^ X (i + 2) ^^^ X (i + 3) ^^^ rk i))) ∧
      ∀ m j, m < 4 → j < 4 →
        byteAt (cipherMem rks len s) (doutBase + 16 * k + 4 * m + j) = some (byteOf j (X (35 - m))) := by
  refine ⟨feistelWord (rks.getD · 0) (quadFrom din (dinBase + 16 * k)), fun j hj => ?_, fun i => ?_, fun m j hm hj => ?_⟩
  · rw [feistelWord_of_lt_four _ _ hj, quadWord_quadFrom _ _ hj]
  · rw [feistelWord_add_four, hrk]
  · rw [byteAt_cipherMem rks hd hk hm hj, quadWord_encryptBlock hlen _ hm]

theorem dinBytes_written {len : Nat} {din : Nat → Byte} (hd : Holds s.mem din dinBase len) :
    ∀ off ∈ (List.range len).map (dinBase + ·), byteAt s.mem off ≠ none := by
  simp only [List.forall_mem_map, List.mem_range]
  exact fun k hk => by simp [hd k hk]

/-- Settles O21, with RK[0] to RK[31] in order (R126). -/
theorem encEncryptsEachBlock : Obligations.EncEncryptsEachBlock := by
  intro len s din hl hk hd
  have he : errorOf (.enc len) s = .ok := errorOf_enc_eq_ok_iff.2 ⟨hl, hk⟩
  refine ⟨_, exec_of_written he (dinBytes_written hd), ?_⟩
  rw [okResult_enc he]
  exact ⟨rfl, fun k => cipherMem_encrypts (by simp) (fun i => by simp) hd, fun off => byteAt_cipherMem_of_not_dout _⟩

/-- Settles O22, with RK[31] to RK[0] (R124, R127). -/
theorem decDecryptsEachBlock : Obligations.DecDecryptsEachBlock := by
  intro len s din hl hk hd
  have he : errorOf (.dec len) s = .ok := errorOf_enc_eq_ok_iff.2 ⟨hl, hk⟩
  refine ⟨_, exec_of_written he (dinBytes_written hd), ?_⟩
  rw [okResult_dec he]
  refine ⟨rfl, fun k => cipherMem_encrypts (by simp) (fun i => ?_) hd, fun off => byteAt_cipherMem_of_not_dout _⟩
  rw [List.getD_eq_getElem _ _ (by simp), List.getElem_reverse]
  simp [Fin.rev]

end Sys2Proof.Machine
end

section
/-! SUPPORT. A step that is one host access, by the part of the window it reaches (spec/20_memory.md R51 to R58), and
the obligations on reset and on host accesses. -/

namespace Sys2Proof.Machine

variable {s : State} {rest : List HostEvent} {off : Nat} {r : Region}

/-! ### Steps that are accesses -/

theorem wordAt_setHost (r : Region) (off : Nat) (s : State) (rest : List HostEvent) :
    wordAt r off { s with host := rest } = wordAt r off s := by
  cases r <;> rfl

theorem byteReadAt_setHost (r : Region) (off : Nat) (s : State) (rest : List HostEvent) :
    byteReadAt r off { s with host := rest } = byteReadAt r off s := by
  cases r <;> rfl

/-- A step that is an admitted 32-bit read (R59). -/
theorem step_rdW (hs : s.host = .rdW off :: rest) (ha : admitWord off = .ok r) :
    step s = withRead (wordAt r off s) fun v =>
      .next { s with host := rest, returned := s.returned ++ [.word v] } := by
  rw [step_cons hs, hostEvent, ha, withAdmitted_ok, wordAt_setHost]
  rfl

/-- A step that is an admitted 8-bit read (R59). -/
theorem step_rdB (hs : s.host = .rdB off :: rest) (ha : admitByte off = .ok r) :
    step s = withRead (byteReadAt r off s) fun v =>
      .next { s with host := rest, returned := s.returned ++ [.byte v] } := by
  rw [step_cons hs, hostEvent, ha, withAdmitted_ok, byteReadAt_setHost]
  rfl

theorem step_wrW {v : Word} (hs : s.host = .wrW off v :: rest) (ha : admitWord off = .ok r) :
    step s = wordWriteAt r off v { s with host := rest } := by
  rw [step_cons hs, hostEvent, ha, withAdmitted_ok]

theorem step_wrB {v : Byte} (hs : s.host = .wrB off v :: rest) (ha : admitByte off = .ok r) :
    step s = byteWriteAt r off v { s with host := rest } := by
  rw [step_cons hs, hostEvent, ha, withAdmitted_ok]

/-! ### Buffers (R51) -/

theorem regionOf_of_bufferOffset (h : bufferOffset off) :
    regionOf off = some .key ∨ regionOf off = some .din ∨ regionOf off = some .dout := by
  rw [regionOf_eq_key, regionOf_eq_din, regionOf_eq_dout]
  omega

theorem step_rdW_buffer (hs : s.host = .rdW off :: rest) (h4 : off % 4 = 0) (hb : bufferOffset off) :
    step s = withRead (readWord s.mem off) fun v =>
      .next { s with host := rest, returned := s.returned ++ [.word v] } := by
  obtain hr | hr | hr := regionOf_of_bufferOffset hb
  all_goals exact step_rdW hs (admitWord_eq_ok_iff.2 ⟨hr, h4⟩)

theorem step_rdB_buffer (hs : s.host = .rdB off :: rest) (hb : bufferOffset off) :
    step s = withRead (readByte s.mem off) fun v =>
      .next { s with host := rest, returned := s.returned ++ [.byte v] } := by
  obtain hr | hr | hr := regionOf_of_bufferOffset hb
  all_goals exact step_rdB hs (admitByte_eq_ok_iff.2 ⟨hr, rfl⟩)

/-- An 8-bit write to KEY or DIN (R56). -/
theorem step_wrB_buffer {v : Byte} (hs : s.host = .wrB off v :: rest)
    (hb : (0x010 ≤ off ∧ off < 0x020) ∨ (0x100 ≤ off ∧ off < 0x180)) :
    step s = .next { s with host := rest, mem := setByte s.mem off v } := by
  obtain hr | hr := hb.imp regionOf_eq_key.2 regionOf_eq_din.2
  all_goals exact step_wrB hs (admitByte_eq_ok_iff.2 ⟨hr, rfl⟩)

/-- A word read with one byte unwritten is a fault (R41). -/
theorem readWord_error_of_unwritten {m : Memory} {j : Nat} (hj : j < 4) (hn : byteAt m (off + j) = none) :
    ∃ f, readWord m off = .error f := by
  cases h : readWord m off with
  | error f => exact ⟨f, rfl⟩
  | ok v => exact absurd hn (readWord_written h hj)

/-- Settles O53, by the read of a word with all bytes written and with one unwritten. -/
theorem wordReadIsBigEndian : Obligations.WordReadIsBigEndian := by
  intro s off rest hs h4 hb
  rw [step_rdW_buffer hs h4 hb]
  refine ⟨fun byte hw => ?_, fun ⟨j, hj, hn⟩ => ?_⟩
  · rw [readWord_of_written hw, withRead_ok]
  · obtain ⟨f, hf⟩ := readWord_error_of_unwritten hj hn
    exact ⟨f, by rw [hf, withRead_error]⟩

/-- Settles O54, by the write of a byte and the read of a byte, written or not. -/
theorem byteAccessesReachOneByte : Obligations.ByteAccessesReachOneByte := by
  refine ⟨fun s off v rest hs hb => ?_, fun s off b rest hs hb hw => ?_, fun s off rest hs hb hn => ?_⟩
  · refine ⟨_, step_wrB_buffer hs hb, rfl, fun a => ?_⟩
    simp only [byteAt_setByte, eq_comm]
  · rw [step_rdB_buffer hs hb, readByte_eq_ok_iff.2 hw, withRead_ok]
  · rw [step_rdB_buffer hs hb, readByte_eq_error_iff.2 ⟨hn, rfl⟩, withRead_error]

/-! ### Control registers (R28, R29, R30) -/

theorem statusWord_fields (s : State) :
    bitField (statusWord s) 3 0 = errNumber s.err ∧ (statusWord s).getLsbD 4 = s.kv ∧
      bitField (statusWord s) 31 5 = 0 := by
  simp only [statusWord]
  cases s.err <;> cases s.kv <;> decide

theorem capWord_fields (s : State) :
    (capWord s).getLsbD 0 = s.cap.hasAes ∧ (capWord s).getLsbD 1 = s.cap.hasGather ∧
      bitField (capWord s) 31 2 = 0 := by
  simp only [capWord]
  cases s.cap.hasAes <;> cases s.cap.hasGather <;> decide

theorem bselWord_fields (s : State) :
    bitField (bselWord s) 1 0 = backendNumber s.bsel ∧ bitField (bselWord s) 31 2 = 0 := by
  simp only [bselWord]
  cases s.bsel <;> decide

/-- Settles O57, by the fields of the three words. -/
theorem controlRegistersRead : Obligations.ControlRegistersRead := by
  rintro s off rest hs (rfl | rfl | rfl)
  · exact ⟨statusWord s, step_rdW hs rfl, fun _ => statusWord_fields s, nofun, nofun⟩
  · exact ⟨capWord s, step_rdW hs rfl, nofun, fun _ => capWord_fields s, nofun⟩
  · exact ⟨bselWord s, step_rdW hs rfl, nofun, nofun, fun _ => bselWord_fields s⟩

/-! ### Operand registers (R51) -/

theorem admitWord_w (i : Reg) : admitWord (0x020 + 4 * i.val) = .ok .w :=
  admitWord_eq_ok_iff.2 ⟨regionOf_eq_w.2 (by omega), by omega⟩

theorem wIndex_w (i : Reg) : wIndex (0x020 + 4 * i.val) = i := by
  apply Fin.ext
  simp only [wIndex, Fin.ofNat]
  omega

/-- Settles O58: the access reaches the window part W, at the register's own index. -/
theorem hostReachesOperandRegisters : Obligations.HostReachesOperandRegisters := by
  refine fun s i rest => ⟨fun v hs => ?_, fun hs => ?_⟩
  · rw [step_wrW hs (admitWord_w i), wordWriteAt, wIndex_w]
    rfl
  · rw [step_rdW hs (admitWord_w i), wordAt, wIndex_w, withRead_ok]
    rfl

/-! ### Reset (R38, R230) -/

/-- STATUS reads 0 with no CipherKey and no error (R28). -/
theorem statusWord_eq_zero (hkv : s.kv = false) (herr : s.err = .ok) : statusWord s = 0 := by
  rw [statusWord, hkv, herr]
  decide

/-- Settles O1, field by field. -/
theorem resetStateAsSpecified : Obligations.ResetStateAsSpecified :=
  fun _ => ⟨rfl, rfl, statusWord_eq_zero rfl rfl, rfl, rfl, rfl, fun r => by simp, fun _ => rfl, rfl⟩

/-- Settles O2: the step is `platformReset`. -/
theorem platformResetRestoresResetState : Obligations.PlatformResetRestoresResetState :=
  fun s rest hs => ⟨platformReset { s with host := rest }, step_cons hs, rfl, statusWord_eq_zero rfl rfl, rfl, rfl,
    fun r => by simp, fun _ => rfl, rfl, rfl, rfl⟩

end Sys2Proof.Machine
end

section
/-! SUPPORT. Decoding undoes encoding (spec/30_encoding.md R70 to R79): the word of a command lies in the command's row
of the opcode map and in no other, and the fields are read back from where they were put. -/

namespace Sys2Proof

/-! ### The row of a word -/

/-- A word that matches a row of the opcode map is decoded by that row: no other row can match it too (R77). -/
theorem decode_of_match {row : OpRow} {v : Word} (hrow : row ∈ opcodeMap) (hv : v &&& row.mask = row.pattern) :
    decode v = row.build v := by
  obtain ⟨q, hq⟩ : ∃ q, opcodeMap.find? (fun r => v &&& r.mask == r.pattern) = some q :=
    Option.isSome_iff_exists.1 (List.find?_isSome.2 ⟨row, hrow, by simp [hv]⟩)
  have hqv : v &&& q.mask = q.pattern := by simpa using List.find?_some hq
  have symm : Std.Symm fun r q : OpRow => r.pattern &&& q.mask ≠ q.pattern &&& r.mask := ⟨fun _ _ h => h.symm⟩
  have hrq : q = row := by
    by_contra hne
    refine opcodeMap_rows_disjoint.forall (List.mem_of_find?_eq_some hq) hrow hne ?_
    rw [← hv, ← hqv, BitVec.and_assoc, BitVec.and_assoc, BitVec.and_comm q.mask]
  rw [decode, hq, hrq]

/-! ### The fields of a word (R73 to R76) -/

/-- Format K as a number: its two fields do not overlap. -/
theorem toNat_wordK {opc : Nat} (h : opc < 256) (len : Fin 256) : (wordK opc len).toNat = opc * 2 ^ 24 + len := by
  have hlen : len.val < 2 ^ 24 := by omega
  rw [wordK, BitVec.toNat_ofNat, ← Nat.shiftLeft_add_eq_or_of_lt hlen, Nat.shiftLeft_eq]
  omega

/-- Format R as a number: its five fields do not overlap. -/
theorem toNat_wordR {opc : Nat} (h : opc < 256) (rd rs rt : Reg) (imm : Fin 32) :
    (wordR opc rd rs rt imm).toNat =
      opc * 2 ^ 24 + rd * 2 ^ 21 + rs * 2 ^ 18 + rt * 2 ^ 15 + imm * 2 ^ 10 := by
  have h15 : imm.val <<< 10 < 2 ^ 15 := by rw [Nat.shiftLeft_eq]; omega
  have h18 : rt.val <<< 15 + imm.val <<< 10 < 2 ^ 18 := by simp only [Nat.shiftLeft_eq]; omega
  have h21 : rs.val <<< 18 + (rt.val <<< 15 + imm.val <<< 10) < 2 ^ 21 := by
    simp only [Nat.shiftLeft_eq]; omega
  have h24 : rd.val <<< 21 + (rs.val <<< 18 + (rt.val <<< 15 + imm.val <<< 10)) < 2 ^ 24 := by
    simp only [Nat.shiftLeft_eq]; omega
  rw [wordR, BitVec.toNat_ofNat, Nat.or_assoc, Nat.or_assoc, Nat.or_assoc,
    ← Nat.shiftLeft_add_eq_or_of_lt h15, ← Nat.shiftLeft_add_eq_or_of_lt h18,
    ← Nat.shiftLeft_add_eq_or_of_lt h21, ← Nat.shiftLeft_add_eq_or_of_lt h24]
  simp only [Nat.shiftLeft_eq]
  omega

section Fields

variable {opc : Nat} (h : opc < 256) (rd rs rt : Reg) (imm : Fin 32)
include h

theorem fieldLen_wordK (len : Fin 256) : fieldLen (wordK opc len) = len := by
  apply Fin.ext
  rw [fieldLen_val, bitField, toNat_wordK h, Nat.shiftRight_eq_div_pow]
  omega

theorem fieldRd_wordR : fieldRd (wordR opc rd rs rt imm) = rd := by
  apply Fin.ext
  rw [fieldRd_val, bitField, toNat_wordR h, Nat.shiftRight_eq_div_pow]
  omega

theorem fieldRs_wordR : fieldRs (wordR opc rd rs rt imm) = rs := by
  apply Fin.ext
  rw [fieldRs_val, bitField, toNat_wordR h, Nat.shiftRight_eq_div_pow]
  omega

theorem fieldRt_wordR : fieldRt (wordR opc rd rs rt imm) = rt := by
  apply Fin.ext
  rw [fieldRt_val, bitField, toNat_wordR h, Nat.shiftRight_eq_div_pow]
  omega

theorem fieldImm5_wordR : fieldImm5 (wordR opc rd rs rt imm) = imm := by
  apply Fin.ext
  rw [fieldImm5_val, bitField, toNat_wordR h, Nat.shiftRight_eq_div_pow]
  omega

end Fields

/-! ### Decoding an encoded command -/

/-- A command's row of the opcode map (R77). -/
def rowOf : Instr → OpRow
  | .keyinit _ => opcodeMap[0]
  | .keyrel => opcodeMap[1]
  | .selb _ => opcodeMap[2]
  | .enc _ => opcodeMap[3]
  | .dec _ => opcodeMap[4]
  | .suba _ _ => opcodeMap[5]
  | .subb _ _ => opcodeMap[6]
  | .subc _ _ => opcodeMap[7]
  | .lin _ _ => opcodeMap[8]
  | .link _ _ => opcodeMap[9]
  | .rnd _ _ _ => opcodeMap[10]
  | .krnd _ _ _ => opcodeMap[11]
  | .aesl _ _ _ => opcodeMap[12]

theorem rowOf_mem (i : Instr) : rowOf i ∈ opcodeMap := by
  cases i <;> exact List.getElem_mem _

/-- The word of a command matches the command's row (R77, R78). -/
theorem encode_matches (i : Instr) : encode i &&& (rowOf i).mask = (rowOf i).pattern := by
  cases i with
  | keyinit len => exact Laws.RowMatch.keyinit len
  | keyrel => exact Laws.RowMatch.keyrel
  | selb b => exact Laws.RowMatch.selb b
  | enc len => exact Laws.RowMatch.enc len
  | dec len => exact Laws.RowMatch.dec len
  | suba rd rs => exact Laws.RowMatch.suba rd rs
  | subb rd rs => exact Laws.RowMatch.subb rd rs
  | subc rd rs => exact Laws.RowMatch.subc rd rs
  | lin rd rs => exact Laws.RowMatch.lin rd rs
  | link rd rs => exact Laws.RowMatch.link rd rs
  | rnd rd rs rt => exact Laws.RowMatch.rnd rd rs rt
  | krnd rd rs c => exact Laws.RowMatch.krnd rd rs c
  | aesl rd rs rt => exact Laws.RowMatch.aesl rd rs rt

/-- A command's row builds it from its word, its constraint being met (R79). -/
theorem build_encode {i : Instr} (h : i.wellFormed = true) : (rowOf i).build (encode i) = .ok i := by
  cases i with
  | keyinit len | enc len | dec len => simp [rowOf, opcodeMap, encode, fieldLen_wordK]
  | keyrel => rfl
  | selb b => cases b <;> decide
  | suba rd rs | subb rd rs | subc rd rs | lin rd rs | link rd rs =>
    simp [rowOf, opcodeMap, encode, fieldRd_wordR, fieldRs_wordR]
  | rnd rd rs rt =>
    have hrs : windowBase rs = true := h
    simp [rowOf, opcodeMap, encode, buildRnd, fieldRd_wordR, fieldRs_wordR, fieldRt_wordR, hrs]
  | krnd rd rs c =>
    have hrs : windowBase rs = true := h
    simp [rowOf, opcodeMap, encode, buildKrnd, fieldRd_wordR, fieldRs_wordR, fieldImm5_wordR, hrs]
  | aesl rd rs rt =>
    have hgroups : (groupBase rd && groupBase rs && groupBase rt) = true := h
    simp [rowOf, opcodeMap, encode, buildAesl, fieldRd_wordR, fieldRs_wordR, fieldRt_wordR, hgroups]

/-- Every well-formed command is decoded from its own word. -/
theorem decode_encode {i : Instr} (h : i.wellFormed = true) : decode (encode i) = .ok i :=
  (decode_of_match (rowOf_mem i) (encode_matches i)).trans (build_encode h)

end Sys2Proof

/-! ### The obligations on command words -/

namespace Sys2Proof.Machine

/-- Settles O8: the step is the command write, and the command write is the command. -/
theorem stepRunsTheWrittenCommand : Obligations.StepRunsTheWrittenCommand := by
  intro s rest v i hs hd
  rw [step_cons hs, hostEvent_cmd, issue_of_decode hd]

/-- Settles O9: the placed word is the next access, and it decodes to the command. -/
theorem placedCommandRunsNext : Obligations.PlacedCommandRunsNext := by
  intro s i hi
  have hword : BitVec.ofNat 32 ((encode i).toNat % 2 ^ 32) = encode i := by
    rw [Nat.mod_eq_of_lt (encode i).isLt, BitVec.ofNat_toNat, BitVec.setWidth_eq]
  rw [step_cons (withFetchWord_host s 32 _), hword, hostEvent_cmd, issue_of_decode (decode_encode hi)]
  rfl

end Sys2Proof.Machine
end

section
/-! SUPPORT. What host accesses leave alone: read-only and reserved parts of the window, reads, and the words the host
writes (spec/20_memory.md R54, R57, R58, R59), and the obligations on them. -/

namespace Sys2Proof.Machine

variable {rest : List HostEvent} {off : Nat}

/-- Settles O55: the access reaches the reserved part of the window. -/
theorem reservedOffsetsReadZero : Obligations.ReservedOffsetsReadZero := by
  intro s off rest hlo hhi
  have hr : regionOf off = some .reserved := regionOf_eq_reserved.2 ⟨hlo, hhi⟩
  have hb : admitByte off = .ok .reserved := admitByte_eq_ok_iff.2 ⟨hr, rfl⟩
  have hw (h4 : off % 4 = 0) : admitWord off = .ok .reserved := admitWord_eq_ok_iff.2 ⟨hr, h4⟩
  obtain ⟨-, -, hstatus⟩ := statusWord_fields s
  obtain ⟨-, -, hcap⟩ := capWord_fields s
  obtain ⟨-, hbsel⟩ := bselWord_fields s
  exact ⟨fun hs => step_rdB hs hb, fun _ hs => step_wrB hs hb, fun h4 hs => step_rdW hs (hw h4),
    fun _ h4 hs => step_wrW hs (hw h4), hstatus, hcap, hbsel⟩

/-- Settles O56, by the part of the window each access reaches. -/
theorem readOnlyLocationsIgnoreWrites : Obligations.ReadOnlyLocationsIgnoreWrites := by
  intro s off rest
  refine ⟨fun v hs hoff => ?_, fun v hs hlo hhi => ?_, fun hs => step_rdW hs (r := .cmd) rfl⟩
  · obtain rfl | rfl | rfl | ⟨hlo, hhi, h4⟩ := hoff
    · exact step_wrW hs (r := .status) rfl
    · exact step_wrW hs (r := .cap) rfl
    · exact step_wrW hs (r := .bsel) rfl
    · exact step_wrW hs (admitWord_eq_ok_iff.2 ⟨regionOf_eq_dout.2 ⟨hlo, hhi⟩, h4⟩)
  · exact step_wrB hs (admitByte_eq_ok_iff.2 ⟨regionOf_eq_dout.2 ⟨hlo, hhi⟩, rfl⟩)

/-! ### Words written to KEY and DIN (R54) -/

theorem step_wrW_buffer {s : State} {v : Word} (hs : s.host = .wrW off v :: rest) (h4 : off % 4 = 0)
    (hb : (0x010 ≤ off ∧ off < 0x020) ∨ (0x100 ≤ off ∧ off < 0x180)) :
    step s = .next { s with host := rest, mem := writeWord s.mem off v } := by
  obtain hr | hr := hb.imp regionOf_eq_key.2 regionOf_eq_din.2
  all_goals exact step_wrW hs (admitWord_eq_ok_iff.2 ⟨hr, h4⟩)

/-- Settles O52, by the bytes a word's write leaves. -/
theorem wordWriteIsBigEndian : Obligations.WordWriteIsBigEndian := by
  intro s off v rest hs h4 hb
  refine ⟨_, step_wrW_buffer hs h4 hb, rfl, fun j hj => ?_, fun a ha => ?_⟩
  · rw [byteAt_writeWord, if_pos (by omega), Nat.add_sub_cancel_left]
  · rw [byteAt_writeWord, if_neg ha]

/-! ### Reads (R59) -/

theorem withAdmitted_eq_next_iff {a : Except Refusal Region} {k : Region → Result} {t : State} :
    withAdmitted a k = .next t ↔ ∃ r, a = .ok r ∧ k r = .next t := by
  cases a <;> simp

/-- A read that is admitted, and answers, only hands its value to the host. -/
theorem returned_of_read {α : Type} {a : Except Refusal Region} {read : Region → Except Fault α} {mk : α → ReadValue}
    {s t : State} (h : withAdmitted a (fun r => withRead (read r) fun v => giveBack (mk v) s) = .next t) :
    ∃ v, t = { s with returned := s.returned ++ [v] } := by
  obtain ⟨r, -, hr⟩ := withAdmitted_eq_next_iff.1 h
  obtain ⟨v, -, hv⟩ := withRead_eq_next_iff.1 hr
  exact ⟨mk v, (Host.Outcome.next.inj hv).symm⟩

/-- Settles O51, at both widths. -/
theorem readsHaveNoSideEffect : Obligations.ReadsHaveNoSideEffect := by
  rintro s t off rest (hs | hs) h
  all_goals
    rw [step_cons hs] at h
    exact returned_of_read h

end Sys2Proof.Machine
end

section
/-! SUPPORT. Only the window refuses: no command, and no access that is admitted, answers a refusal (spec/20_memory.md
R52, R53). -/

namespace Sys2Proof.Machine

variable {s : State} {off : Nat}

/-! ### What never refuses -/

theorem exec_ne_refused (i : Instr) (s : State) (x : Refusal) : exec i s ≠ .refused x := by
  by_cases he : errorOf i s = .ok
  · rw [exec_of_ok he]
    cases bufferReadOf i s.mem <;> nofun
  · rw [exec_of_error he]
    nofun

theorem issue_ne_refused (v : Word) (s : State) (x : Refusal) : issue v s ≠ .refused x := by
  cases hd : decode v with
  | error e => rw [issue_of_illegal hd]; nofun
  | ok i => rw [issue_of_decode hd]; exact exec_ne_refused i s x

theorem wordWriteAt_ne_refused (r : Region) (off : Nat) (v : Word) (s : State) (x : Refusal) :
    wordWriteAt r off v s ≠ .refused x := by
  cases r with
  | cmd => exact issue_ne_refused v s x
  | _ => nofun

theorem byteWriteAt_ne_refused (r : Region) (off : Nat) (v : Byte) (s : State) (x : Refusal) :
    byteWriteAt r off v s ≠ .refused x := by
  cases r <;> nofun

theorem read_ne_refused {α : Type} (read : Except Fault α) (mk : α → ReadValue) (s : State) (x : Refusal) :
    (withRead read fun v => giveBack (mk v) s) ≠ .refused x := by
  cases read <;> nofun

/-! ### Refusals are of the window (R53) -/

theorem exists_admitWord_error_iff : (∃ x, admitWord off = .error x) ↔ wordOffset off = false := by
  obtain ⟨hoff, r, ha⟩ | ⟨hoff, x, ha⟩ := admitWord_admits off
  all_goals simp [ha, hoff]

theorem exists_admitByte_error_iff : (∃ x, admitByte off = .error x) ↔ byteOffset off = false := by
  obtain ⟨hoff, r, ha⟩ | ⟨hoff, x, ha⟩ := admitByte_admits off
  all_goals simp [ha, hoff]

/-- An access that goes on without a refusal once it is admitted is refused exactly when it is not admitted. -/
theorem refused_iff_of_continuation {a : Except Refusal Region} {k : Region → Result}
    (hk : ∀ r x, k r ≠ .refused x) : (∃ x, withAdmitted a k = .refused x) ↔ ∃ x, a = .error x := by
  cases a with
  | error x => simp
  | ok r => simp [hk]

theorem hostEvent_refused_iff (e : HostEvent) (s : State) :
    (∃ x, hostEvent e s = .refused x) ↔ admitted e = false := by
  cases e with
  | rdW off =>
    exact (refused_iff_of_continuation fun _ => read_ne_refused _ _ s).trans exists_admitWord_error_iff
  | rdB off =>
    exact (refused_iff_of_continuation fun _ => read_ne_refused _ _ s).trans exists_admitByte_error_iff
  | wrW off v =>
    exact (refused_iff_of_continuation fun r => wordWriteAt_ne_refused r off v s).trans exists_admitWord_error_iff
  | wrB off v =>
    exact (refused_iff_of_continuation fun r => byteWriteAt_ne_refused r off v s).trans exists_admitByte_error_iff
  | rdOdd w off => exact iff_of_true ⟨.accessWidth, rfl⟩ rfl
  | wrOdd w off => exact iff_of_true ⟨.accessWidth, rfl⟩ rfl
  | reset => exact iff_of_false nofun nofun

/-- Settles O50: the step is its event. -/
theorem refusedExactlyWhenNotAdmitted : Obligations.RefusedExactlyWhenNotAdmitted := by
  intro s e rest hs
  rw [step_cons hs]
  exact hostEvent_refused_iff e _

end Sys2Proof.Machine
end

section
/-! SUPPORT. The canonical form of the buffers, kept by every write to them and so by every step (spec/20_memory.md
R51). -/

namespace Sys2Proof.Machine

variable {s t : State} {i : Instr}

/-- The cells are bytes of KEY, DIN and DOUT exactly when a read finds bytes nowhere else. -/
theorem memoryCanonical_iff :
    s.memoryCanonical ↔ Memory.wf s.mem ∧ ∀ off, byteAt s.mem off ≠ none → bufferOffset off := by
  refine and_congr_right fun _ => ⟨fun h off hoff => ?_, fun h c hc => ?_⟩
  · obtain ⟨c, hc, rfl⟩ := (exists_mem_iff_byteAt s.mem off).2 hoff
    exact h c hc
  · exact h c.1 ((exists_mem_iff_byteAt s.mem c.1).1 ⟨c, hc, rfl⟩)

/-- A memory in order that differs from a canonical one at bytes of KEY, DIN and DOUT alone is canonical. -/
theorem memoryCanonical_of_writes (hs : s.memoryCanonical) (hwf : Memory.wf t.mem)
    (hw : ∀ off, ¬ bufferOffset off → byteAt t.mem off = byteAt s.mem off) : t.memoryCanonical := by
  refine memoryCanonical_iff.2 ⟨hwf, fun off hoff => ?_⟩
  by_contra hb
  rw [hw off hb] at hoff
  exact hb ((memoryCanonical_iff.1 hs).2 off hoff)

/-! ### Commands (R24) -/

theorem okResult_mem_wf (i : Instr) (h : Memory.wf s.mem) : Memory.wf (okResult i s).mem := by
  cases i with
  | enc len | dec len => exact writeQuads_wf h _ _
  | keyinit len => simpa only [okResult] using h
  | keyrel => simpa only [okResult, apply_ite State.mem, ite_self] using h
  | _ => exact h

theorem bufferOffset_of_mem_doutBytes {len : Fin 256} {off : Nat} (he : errorOf (.enc len) s = .ok)
    (h : off ∈ (List.range len.val).map (doutBase + ·)) : bufferOffset off := by
  have hlen : len.val ≤ 128 := by
    have hl := (errorOf_enc_eq_ok_iff.1 he).1
    rw [← legalLength_eq_accepted, legalLength, Bool.and_eq_true, decide_eq_true_eq] at hl
    exact hl.2
  obtain ⟨hlo, hhi⟩ := mem_doutBytes_iff.1 h
  simp only [doutBase] at hlo hhi
  exact .inr (by omega)

/-- A command that passes its checks writes bytes of DOUT only. -/
theorem bufferOffset_of_mem_bufferWrites {off : Nat} (he : errorOf i s = .ok) (h : off ∈ bufferWrites i) :
    bufferOffset off := by
  cases i with
  | enc len => exact bufferOffset_of_mem_doutBytes he h
  | dec len => exact bufferOffset_of_mem_doutBytes he h
  | _ => exact absurd h List.not_mem_nil

theorem okResult_memoryCanonical (he : errorOf i s = .ok) (hs : s.memoryCanonical) :
    (okResult i s).memoryCanonical :=
  memoryCanonical_of_writes hs (okResult_mem_wf i hs.1) fun _ hb =>
    okResult_byte he (mt (bufferOffset_of_mem_bufferWrites he) hb)

/-! ### Events -/

theorem hostEvent_memoryCanonical {e : HostEvent} (hs : s.memoryCanonical) (h : hostEvent e s = .next t) :
    t.memoryCanonical := by
  obtain ⟨v, rfl⟩ | ⟨off, v, ⟨hoff, -, h4, -⟩, rfl⟩ | ⟨off, v, ⟨hoff, -, -⟩, rfl⟩ | ⟨r, v, rfl⟩ | rfl |
    ⟨v, -, hv⟩ | ⟨-, rfl⟩ := hostEvent_next_cases h
  · exact hs
  · refine memoryCanonical_of_writes hs (writeWord_wf hs.1 off v) fun a ha => ?_
    rw [byteAt_writeWord, if_neg (by omega)]
  · exact memoryCanonical_of_writes hs (setByte_wf hs.1 off v) fun a ha =>
      byteAt_setByte_ne s.mem v (by rintro rfl; exact ha hoff)
  · exact hs
  · exact hs
  · obtain ⟨i, -, he, rfl⟩ | ⟨c, rfl⟩ := issue_next_cases hv
    · exact okResult_memoryCanonical he hs
    · exact hs
  · exact ⟨reset_mem_wf s.cap, nofun⟩

/-- Settles O43: the step is its event, or nothing. -/
theorem stepKeepsMemoryCanonical : Obligations.StepKeepsMemoryCanonical := by
  intro s t hs h
  cases hhost : s.host with
  | nil =>
    rw [step_nil hhost] at h
    exact Host.Outcome.next.inj h ▸ hs
  | cons e rest =>
    rw [step_cons hhost] at h
    exact hostEvent_memoryCanonical (s := { s with host := rest }) hs h

end Sys2Proof.Machine
end

section
/-! SUPPORT. Encoding undoes decoding, and which words are legal (spec/30_encoding.md R70 to R80): a mask fixes the
fields it covers, so a word that matches a row is put together again from the opcode and the fields that row reads. -/

namespace Sys2Proof

variable {v m p : Word} {opc : Nat} {i : Instr}

/-! ### Fields under a mask (R77) -/

theorem bitField_lt (v : Word) (hi lo : Nat) : bitField v hi lo < 2 ^ (hi + 1 - lo) :=
  Nat.mod_lt _ (by positivity)

theorem bitField_and (v m : Word) (hi lo : Nat) : bitField (v &&& m) hi lo = bitField v hi lo &&& bitField m hi lo := by
  apply Nat.eq_of_testBit_eq
  intro j
  simp only [bitField_testBit, Nat.testBit_and, BitVec.getLsbD_and]
  cases decide (j < hi + 1 - lo) <;> rfl

/-- A field the mask covers has the value it has in the pattern. -/
theorem bitField_of_match {hi lo : Nat} (hv : v &&& m = p) (hm : bitField m hi lo = 2 ^ (hi + 1 - lo) - 1) :
    bitField v hi lo = bitField p hi lo := by
  rw [← hv, bitField_and, hm, Nat.and_two_pow_sub_one_eq_mod, Nat.mod_eq_of_lt (bitField_lt v hi lo)]

theorem fieldRt_of_match (hv : v &&& m = p) (hm : bitField m 17 15 = 7) : fieldRt v = fieldRt p := by
  rw [fieldRt, bitField_of_match hv hm, fieldRt]

theorem fieldImm5_of_match (hv : v &&& m = p) (hm : bitField m 14 10 = 31) : fieldImm5 v = fieldImm5 p := by
  rw [fieldImm5, bitField_of_match hv hm, fieldImm5]

/-- KEYREL's mask covers the whole word. -/
theorem and_ones (v : Word) : v &&& 0xFFFFFFFF#32 = v := BitVec.and_allOnes ..

/-! ### A word from its fields (R73 to R76, R78) -/

/-- Format K: under its mask a word is its opcode and LEN. -/
theorem wordK_of_match (hopc : opc < 256) (hv : v &&& 0xFFFFFF00 = wordK opc 0) : wordK opc (fieldLen v) = v := by
  have hhigh : bitField v 31 8 = bitField (wordK opc 0) 31 8 := bitField_of_match hv rfl
  have hlt := v.isLt
  apply BitVec.eq_of_toNat_eq
  simp only [bitField, toNat_wordK hopc, Nat.shiftRight_eq_div_pow] at hhigh
  rw [toNat_wordK hopc, fieldLen_val, bitField]
  omega

theorem bitField_opcode_wordR (hopc : opc < 256) (rd rs rt : Reg) (imm : Fin 32) :
    bitField (wordR opc rd rs rt imm) 31 24 = opc := by
  rw [bitField, toNat_wordR hopc, Nat.shiftRight_eq_div_pow]
  omega

theorem bitField_low_wordR (hopc : opc < 256) (rd rs rt : Reg) (imm : Fin 32) :
    bitField (wordR opc rd rs rt imm) 9 0 = 0 := by
  rw [bitField, toNat_wordR hopc, Nat.shiftRight_eq_div_pow]
  omega

/-- Format R: a word with nothing below IMM5 is its opcode and its fields. -/
theorem wordR_fields (hopc : bitField v 31 24 = opc) (hlow : bitField v 9 0 = 0) :
    wordR opc (fieldRd v) (fieldRs v) (fieldRt v) (fieldImm5 v) = v := by
  have hlt := v.isLt
  apply BitVec.eq_of_toNat_eq
  rw [toNat_wordR (hopc ▸ bitField_lt v 31 24), fieldRd_val, fieldRs_val, fieldRt_val, fieldImm5_val]
  simp only [bitField, Nat.shiftRight_eq_div_pow] at hopc hlow ⊢
  omega

theorem wordR_of_match (hopc : opc < 256) (hv : v &&& m = wordR opc 0 0 0 0) (hm31 : bitField m 31 24 = 255)
    (hm9 : bitField m 9 0 = 1023) : wordR opc (fieldRd v) (fieldRs v) (fieldRt v) (fieldImm5 v) = v :=
  wordR_fields ((bitField_of_match hv hm31).trans (bitField_opcode_wordR hopc ..))
    ((bitField_of_match hv hm9).trans (bitField_low_wordR hopc ..))

/-- The rows whose only operands are rd and rs. -/
theorem wordR_of_match_unary (hopc : opc < 256) (hv : v &&& 0xFF03FFFF = wordR opc 0 0 0 0) :
    wordR opc (fieldRd v) (fieldRs v) 0 0 = v := by
  have hrt : fieldRt v = 0 := (fieldRt_of_match hv rfl).trans (fieldRt_wordR hopc ..)
  have himm : fieldImm5 v = 0 := (fieldImm5_of_match hv rfl).trans (fieldImm5_wordR hopc ..)
  simpa only [hrt, himm] using wordR_of_match hopc hv rfl rfl

/-- The rows whose operands are rd, rs and rt. -/
theorem wordR_of_match_rt (hopc : opc < 256) (hv : v &&& 0xFF007FFF = wordR opc 0 0 0 0) :
    wordR opc (fieldRd v) (fieldRs v) (fieldRt v) 0 = v := by
  have himm : fieldImm5 v = 0 := (fieldImm5_of_match hv rfl).trans (fieldImm5_wordR hopc ..)
  simpa only [himm] using wordR_of_match hopc hv rfl rfl

/-- The row whose operands are rd, rs and imm5. -/
theorem wordR_of_match_imm5 (hopc : opc < 256) (hv : v &&& 0xFF0383FF = wordR opc 0 0 0 0) :
    wordR opc (fieldRd v) (fieldRs v) 0 (fieldImm5 v) = v := by
  have hrt : fieldRt v = 0 := (fieldRt_of_match hv rfl).trans (fieldRt_wordR hopc ..)
  simpa only [hrt] using wordR_of_match hopc hv rfl rfl

/-! ### The rows with a constraint (R79) -/

theorem backendOf_eq_some_iff {n : Nat} {b : Backend} : backendOf n = some b ↔ backendNumber b = n := by
  match n with
  | 0 | 1 | 2 | _ + 3 => cases b <;> simp [backendOf, backendNumber]

theorem buildSelb_eq_ok_iff : buildSelb v = .ok i ↔ ∃ b, backendNumber b = bitField v 1 0 ∧ i = .selb b := by
  simp only [← backendOf_eq_some_iff, buildSelb]
  cases backendOf (bitField v 1 0) <;> simp [eq_comm]

theorem buildRnd_eq_ok_iff : buildRnd v = .ok i ↔
    windowBase (fieldRs v) = true ∧ i = .rnd (fieldRd v) (fieldRs v) (fieldRt v) := by
  cases h : windowBase (fieldRs v) <;> simp [buildRnd, h, eq_comm]

theorem buildKrnd_eq_ok_iff : buildKrnd v = .ok i ↔
    windowBase (fieldRs v) = true ∧ i = .krnd (fieldRd v) (fieldRs v) (fieldImm5 v) := by
  cases h : windowBase (fieldRs v) <;> simp [buildKrnd, h, eq_comm]

theorem buildAesl_eq_ok_iff : buildAesl v = .ok i ↔
    (groupBase (fieldRd v) && groupBase (fieldRs v) && groupBase (fieldRt v)) = true ∧
      i = .aesl (fieldRd v) (fieldRs v) (fieldRt v) := by
  cases h : groupBase (fieldRd v) && groupBase (fieldRs v) && groupBase (fieldRt v) <;> simp [buildAesl, h, eq_comm]

/-- SELB's backend is all of its word below the opcode. -/
theorem encode_selb_of_match {b : Backend} (hv : v &&& 0xFFFFFFFC = 0x08000000)
    (hb : backendNumber b = bitField v 1 0) :
    encode (.selb b) = v := by
  have hhigh : bitField v 31 2 = bitField 0x08000000 31 2 := bitField_of_match hv rfl
  have hlt := v.isLt
  apply BitVec.eq_of_toNat_eq
  simp only [bitField, Nat.shiftRight_eq_div_pow, BitVec.reduceToNat] at hhigh hb
  have hword : (encode (.selb b)).toNat = 0x08000000 + backendNumber b := by cases b <;> rfl
  omega

/-! ### Encoding a decoded command -/

/-- What a row builds from a word that matches it is a well-formed command, and the word is its encoding. -/
theorem wellFormed_encode_of_build : ∀ row ∈ opcodeMap, ∀ v i, v &&& row.mask = row.pattern →
    row.build v = .ok i → i.wellFormed = true ∧ encode i = v := by
  simp only [opcodeMap, List.forall_mem_cons]
  refine ⟨?keyinit, ?keyrel, ?selb, ?enc, ?dec, ?suba, ?subb, ?subc, ?lin, ?link, ?rnd, ?krnd, ?aesl, nofun⟩
  all_goals intro v i hv hi
  case keyinit | enc | dec =>
    cases hi
    exact ⟨rfl, wordK_of_match (by decide) hv⟩
  case keyrel =>
    cases hi
    exact ⟨rfl, hv.symm.trans (and_ones v)⟩
  case selb =>
    obtain ⟨b, hb, rfl⟩ := buildSelb_eq_ok_iff.1 hi
    exact ⟨rfl, encode_selb_of_match hv hb⟩
  case suba | subb | subc | lin | link =>
    cases hi
    exact ⟨rfl, wordR_of_match_unary (by decide) hv⟩
  case rnd =>
    obtain ⟨hrs, rfl⟩ := buildRnd_eq_ok_iff.1 hi
    exact ⟨hrs, wordR_of_match_rt (by decide) hv⟩
  case krnd =>
    obtain ⟨hrs, rfl⟩ := buildKrnd_eq_ok_iff.1 hi
    exact ⟨hrs, wordR_of_match_imm5 (by decide) hv⟩
  case aesl =>
    obtain ⟨hgroups, rfl⟩ := buildAesl_eq_ok_iff.1 hi
    exact ⟨hgroups, wordR_of_match_rt (by decide) hv⟩

/-- A word that decodes is the encoding of its command, which is well-formed. -/
theorem wellFormed_encode_of_decode (h : decode v = .ok i) : i.wellFormed = true ∧ encode i = v := by
  obtain ⟨row, hrow, hv, hi⟩ := decode_eq_ok h
  exact wellFormed_encode_of_build row hrow v i hv hi

/-! ### Legal words (R80) -/

/-- A word decodes exactly when it matches a row and meets the row's constraint. -/
theorem exists_decode_iff :
    (∃ i, decode v = .ok i) ↔ ∃ row ∈ opcodeMap, v &&& row.mask = row.pattern ∧ ∃ i, row.build v = .ok i := by
  constructor
  · rintro ⟨i, h⟩
    obtain ⟨row, hrow, hv, hi⟩ := decode_eq_ok h
    exact ⟨row, hrow, hv, i, hi⟩
  · rintro ⟨row, hrow, hv, i, hi⟩
    exact ⟨i, (decode_of_match hrow hv).trans hi⟩

/-- A three-bit field, shifted down and masked. -/
theorem toNat_shiftRight_and_seven (v : Word) (lo : Nat) : ((v >>> lo) &&& 7).toNat = bitField v (lo + 2) lo := by
  rw [bitField, show lo + 2 + 1 - lo = 3 by omega, BitVec.toNat_and, BitVec.toNat_ushiftRight]
  exact Nat.and_two_pow_sub_one_eq_mod _ 3

theorem windowBase_fieldRs_iff : windowBase (fieldRs v) = true ↔ (v >>> 18) &&& 7 ≤ 4 := by
  rw [windowBase, decide_eq_true_iff, fieldRs_val, BitVec.le_def, toNat_shiftRight_and_seven]
  rfl

/-- A register field names a group base when its bits are 0 or 4. -/
theorem groupBase_iff {r : Reg} {lo : Nat} (hr : r.val = bitField v (lo + 2) lo) :
    groupBase r = true ↔ (v >>> lo) &&& 7 = 0 ∨ (v >>> lo) &&& 7 = 4 := by
  simp only [groupBase, Bool.or_eq_true, beq_iff_eq, BitVec.toNat_eq, hr, toNat_shiftRight_and_seven]
  rfl

/-- Of the values of SELB's two-bit field, 3 alone names no backend. -/
theorem exists_backendNumber_iff {n : Nat} (hn : n < 4) : (∃ b, backendNumber b = n) ↔ n ≠ 3 := by
  constructor
  · rintro ⟨b, rfl⟩
    cases b <;> decide
  · intro h3
    obtain rfl | rfl | rfl : n = 0 ∨ n = 1 ∨ n = 2 := by omega
    exacts [⟨.table, rfl⟩, ⟨.aes, rfl⟩, ⟨.simd, rfl⟩]

theorem exists_buildSelb_iff : (∃ i, buildSelb v = .ok i) ↔ v &&& 3 ≠ 3 := by
  have hfield : (v &&& 3).toNat = bitField v 1 0 := Nat.and_two_pow_sub_one_eq_mod v.toNat 2
  simp only [buildSelb_eq_ok_iff, exists_comm (α := Instr), exists_and_left, exists_eq, and_true,
    exists_backendNumber_iff (bitField_lt v 1 0), ne_eq, BitVec.toNat_eq, hfield]
  rfl

end Sys2Proof

namespace Sys2Proof.Machine

/-- The words that decode are the legal words of R80: the opcode map and the constraints, row for row. -/
theorem exists_decode_iff_legalWord (v : Word) : (∃ i, decode v = .ok i) ↔ legalWord v = true := by
  simp [exists_decode_iff, opcodeMap, exists_buildSelb_iff, buildRnd_eq_ok_iff, buildKrnd_eq_ok_iff,
    buildAesl_eq_ok_iff, windowBase_fieldRs_iff, groupBase_iff (fieldRd_val v), groupBase_iff (fieldRs_val v),
    groupBase_iff (fieldRt_val v), legalWord, and_ones, or_assoc, and_assoc]

/-- A word of an unassigned opcode is in no row of the opcode map. -/
theorem legalWord_of_unassignedOpcode {v : Word} (h : unassignedOpcode (bitField v 31 24) = true) :
    legalWord v = false := by
  rw [← Bool.not_eq_true, ← exists_decode_iff_legalWord, exists_decode_iff]
  rintro ⟨row, hrow, hv, -⟩
  have hassigned : ∀ row ∈ opcodeMap,
      bitField row.mask 31 24 = 255 ∧ unassignedOpcode (bitField row.pattern 31 24) = false := by decide
  obtain ⟨hmask, hpattern⟩ := hassigned row hrow
  rw [bitField_of_match hv hmask, hpattern] at h
  contradiction

/-! ### The obligations on the encoding -/

/-- Settles O4: the word lies in its command's row of the opcode map, which reads its fields back. -/
theorem decodeOfEncodeIsTheCommand : Obligations.DecodeOfEncodeIsTheCommand := by
  intro i hi
  exact decode_encode hi

/-- Settles O5: the word matches some row, whose mask and fields cover all its bits. -/
theorem encodeOfDecodeIsTheWord : Obligations.EncodeOfDecodeIsTheWord := by
  intro v i h
  exact wellFormed_encode_of_decode h

/-- Settles O6, by decoding each word. -/
theorem sampleWordsDecode : Obligations.SampleWordsDecode := by
  unfold Obligations.SampleWordsDecode
  decide +kernel

/-- Settles O7: legality, by the rows of the opcode map; the step of an illegal word is a command write that decodes
to no command. -/
theorem illegalWordsAreExactlyThose : Obligations.IllegalWordsAreExactlyThose := by
  intro v
  refine ⟨exists_decode_iff_legalWord v, legalWord_of_unassignedOpcode, fun hill s rest hs => ?_⟩
  cases hd : decode v with
  | ok i => exact absurd ((exists_decode_iff_legalWord v).1 ⟨i, hd⟩) (by simp [hill])
  | error e => rw [step_cons hs, hostEvent_cmd, issue_of_illegal hd]

end Sys2Proof.Machine
end

section
/-! SUPPORT. The key schedule as the recursion of R104 on the words K_n, the commands KEYINIT, KEYREL, KRND and LINK
in its terms, and the obligations on them and on the two linear diffusions (spec/40_key_schedule.md). -/

namespace Sys2Proof.Machine

variable {s t : State}

/-! ### The diffusions L and L' (R102, R120) -/

theorem rotl32_xor (x y : Word) {n : Nat} (h : 0 < n ∧ n < 32) : rotl32 (x ^^^ y) n = rotl32 x n ^^^ rotl32 y n := by
  apply BitVec.eq_of_getLsbD_eq
  intro i hi
  simp only [BitVec.getLsbD_xor, getLsbD_rotl32 _ h hi]

theorem lin_xor (x y : Word) : lin (x ^^^ y) = lin x ^^^ lin y := by
  simp (disch := decide) only [lin, rotl32_xor]
  ac_rfl

theorem linK_xor (x y : Word) : linK (x ^^^ y) = linK x ^^^ linK y := by
  simp (disch := decide) only [linK, rotl32_xor]
  ac_rfl

theorem getLsbD_linK (x : Word) {i : Nat} (hi : i < 32) :
    (linK x).getLsbD i = (x.getLsbD i ^^ x.getLsbD ((i + 19) % 32) ^^ x.getLsbD ((i + 9) % 32)) := by
  simp only [linK, BitVec.getLsbD_xor, getLsbD_rotl32 x (n := 13) (by decide) hi,
    getLsbD_rotl32 x (n := 23) (by decide) hi]
  rfl

/-- Settles O25: rotations are linear, so their XORs are. -/
theorem diffusionsAreLinear : Obligations.DiffusionsAreLinear :=
  ⟨fun a b => ⟨lin_xor a b, linK_xor a b⟩, rfl, rfl⟩

/-- Settles O20: LINK passes every check, and rotation moves each bit. -/
theorem linkComputesLPrime : Obligations.LinkComputesLPrime := by
  intro rd rs s
  exact ⟨linK s.w[rs], unaryCommand_eq linK rd rs s, fun i hi => getLsbD_linK s.w[rs] hi⟩

/-! ### The words of the key schedule (R104) -/

/-- The word `K_n` of the recursion that starts from the words `K_0 .. K_3` of `k` (R104). -/
def keyWord (k : Quad) (n : Nat) : Word := (ksRun k n).2.x0

/-- The window that `ksRun` carries after `n` rounds holds the words from `K_n` on. -/
theorem ksRun_window (k : Quad) (n : Nat) :
    (ksRun k n).2 = ⟨keyWord k n, keyWord k (n + 1), keyWord k (n + 2), keyWord k (n + 3)⟩ := rfl

/-- The first four words are MK xor FK. -/
theorem keyWord_of_lt_four (mk : Quad) {j : Nat} (h : j < 4) :
    keyWord (keyStart mk) j = quadWord mk j ^^^ quadWord fk j := by
  obtain rfl | rfl | rfl | rfl : j = 0 ∨ j = 1 ∨ j = 2 ∨ j = 3 := by omega
  all_goals rfl

/-- The recursion of R104. -/
theorem keyWord_add_four (k : Quad) (i : Fin 32) :
    keyWord k (i + 4) =
      keyRound ⟨keyWord k i, keyWord k (i + 1), keyWord k (i + 2), keyWord k (i + 3)⟩ (ck i) := by
  calc keyWord k (i + 4) = keyRound (ksRun k i).2 (ck (Fin.ofNat 32 i)) := rfl
    _ = _ := by rw [ksRun_window, Fin.ofNat_val_eq_self]

theorem getElem_ksRun (k : Quad) {n i : Nat} (h : i < n) : (ksRun k n).1[i] = keyWord k (i + 4) := by
  induction n with
  | zero => omega
  | succ n ih =>
    simp only [ksRun, Vector.getElem_push]
    split
    · exact ih _
    · obtain rfl : i = n := by omega
      rfl

/-- Subkey `RK[n]` is `K_{n+4}`. -/
theorem getElem_keySchedule (mk : Quad) {n : Nat} (h : n < 32) :
    (keySchedule mk)[n] = keyWord (keyStart mk) (n + 4) :=
  getElem_ksRun _ h

theorem getElem_keyWords (mk : Quad) {n : Nat} (h : n < 36) : (keyWords mk)[n] = keyWord (keyStart mk) n := by
  by_cases h4 : n < 4
  · rw [keyWords, Vector.getElem_append_left h4, keyWord_of_lt_four mk h4]
    obtain rfl | rfl | rfl | rfl : n = 0 ∨ n = 1 ∨ n = 2 ∨ n = 3 := by omega
    all_goals rfl
  · have hle : 4 ≤ n := by omega
    rw [keyWords, Vector.getElem_append_right h hle, getElem_keySchedule, Nat.sub_add_cancel hle]

/-- Settles O19, entry by entry. -/
theorem ckFollowsTheFormula : Obligations.CkFollowsTheFormula := by
  unfold Obligations.CkFollowsTheFormula
  decide

/-! ### KEYINIT and KEYREL (R105, R106) -/

/-- A block depends on its 16 bytes only (R55). -/
theorem quadFrom_congr {f g : Nat → Byte} {off : Nat} (h : ∀ k, k < 16 → f (off + k) = g (off + k)) :
    quadFrom f off = quadFrom g off := by
  have h0 : f off = g off := h 0 (by decide)
  simp (disch := decide) only [quadFrom, wordFrom, Nat.add_assoc, Nat.reduceAdd, h, h0]

/-- KEYINIT of 16 bytes passes its checks. -/
theorem errorOf_keyinit_sixteen (s : State) : errorOf (.keyinit 16) s = .ok := errorOf_keyinit 16 s

/-- KEYINIT with KEY written stores the key schedule of its bytes. -/
theorem exec_keyinit_of_holds {key : Nat → Byte} (h : Holds s.mem key keyBase 16) :
    exec (.keyinit 16) s =
      .next { s with rk := keySchedule (quadFrom key keyBase), kv := true, err := .ok } := by
  simp [exec, execKeyinit, readQuad_of_written h, succeed]

/-- Settles O14: RK holds the words of the recursion from `K_4` on; another length is an error. -/
theorem keyinitBuildsTheCipherKey : Obligations.KeyinitBuildsTheCipherKey := by
  intro s
  refine ⟨fun key hkey => ?_, fun len hlen => ?_⟩
  · refine ⟨_, keyWord (keyStart (quadFrom key keyBase)), exec_keyinit_of_holds hkey, fun j hj => ?_,
      fun i => ⟨keyWord_add_four _ i, getElem_keySchedule _ i.isLt⟩⟩
    rw [keyWord_of_lt_four _ hj, quadWord_quadFrom _ _ hj]
  · have he : errorOf (.keyinit len) s = .badLength := by rw [errorOf_keyinit, if_pos hlen]
    rw [exec_of_error (by simp [he]), he]

/-- A successful KEYINIT leaves the key schedule of the bytes of KEY. -/
theorem rk_of_exec_keyinit (h : exec (.keyinit 16) s = .next t) :
    t.rk = keySchedule (quadFrom (byteOrZero s.mem) keyBase) := by
  obtain ⟨he, -⟩ | ⟨-, rfl⟩ := exec_next_cases h
  · exact absurd (errorOf_keyinit_sixteen s) he
  · rfl

/-- Settles O15: both RKs are the key schedule of the same 16 bytes. -/
theorem keyinitIsDeterminedByKey : Obligations.KeyinitIsDeterminedByKey := by
  intro s s' t t' hkey h h'
  rw [rk_of_exec_keyinit h, rk_of_exec_keyinit h']
  exact congrArg keySchedule (quadFrom_congr fun k hk => congrArg (Option.getD · 0) (hkey k hk))

/-- KEYREL passes every check and reads no buffer. -/
theorem exec_keyrel (s : State) : exec .keyrel s = .next (okResult .keyrel s) :=
  exec_of_written rfl (by simp [bufferReads])

/-- Settles O16, by the two cases of KV. -/
theorem keyrelReleasesTheKey : Obligations.KeyrelReleasesTheKey := by
  intro s
  refine ⟨fun hkv => ⟨Vector.ofFn (Config.releasedSubkey s.draws), ?_⟩, fun hkv => ?_⟩
  · rw [exec_keyrel, okResult, if_pos hkv]
  · rw [exec_keyrel, okResult, if_neg (by simp [hkv])]

/-! ### KRND (R107) -/

/-- A window that fits is four consecutive registers (R76, R79). -/
theorem readWQuad_of_le {b : Reg} (s : State) (h : b.val ≤ 4) :
    readWQuad s b = ⟨s.w[b.val], s.w[b.val + 1], s.w[b.val + 2], s.w[b.val + 3]⟩ := by
  have h1 : (b + 1).val = b.val + 1 := by simp only [Fin.val_add]; omega
  have h2 : (b + 2).val = b.val + 2 := by simp only [Fin.val_add]; omega
  have h3 : (b + 3).val = b.val + 3 := by simp only [Fin.val_add]; omega
  simp only [readWQuad, readW, Fin.getElem_fin, h1, h2, h3]

/-- KRND on a window that fits is one key-schedule round on its four registers. -/
theorem exec_krnd_of_le {rs : Reg} (rd : Reg) (i : Fin 32) (s : State) (h : rs.val ≤ 4) :
    exec (.krnd rd rs i) s = .next { writeW s rd
      (keyRound ⟨s.w[rs.val], s.w[rs.val + 1], s.w[rs.val + 2], s.w[rs.val + 3]⟩ (ck i)) with err := .ok } := by
  have he : errorOf (.krnd rd rs i) s = .ok := by simp [errorOf_krnd, windowBase, h]
  rw [exec_of_written he (by simp [bufferReads]), okResult, readWQuad_of_le s h]

/-- Settles O17: the round where the window fits, the error where it does not. -/
theorem krndComputesOneKeyRound : Obligations.KrndComputesOneKeyRound := by
  intro rd rs i s
  refine ⟨exec_krnd_of_le rd i s, fun h => ?_⟩
  have he : errorOf (.krnd rd rs i) s = .illegalCmd := by simp [errorOf_krnd, windowBase, h]
  rw [exec_of_error (by simp [he]), he]

/-- Settles O18: the round on `K_n .. K_{n+3}` is the recursion of R104, which gives `K_{n+4}`. -/
theorem krndContinuesTheKeySchedule : Obligations.KrndContinuesTheKeySchedule := by
  intro rd rs mk s n h hn h0 h1 h2 h3
  refine ⟨by rw [getElem_keyWords, getElem_keySchedule], ?_⟩
  have hround := keyWord_add_four (keyStart mk) ⟨n, hn⟩
  rw [exec_krnd_of_le rd ⟨n, hn⟩ s h, h0, h1, h2, h3, getElem_keySchedule]
  simp only [getElem_keyWords, hround]

end Sys2Proof.Machine
end

section
/-! SUPPORT. Decryption undoes encryption round by round, no backend changes a result, the commands RND and LIN, and
the obligations on them (spec/41_round_function.md R120 to R132). -/

namespace Sys2Proof.Machine

variable {s s' t : State}

/-! ### LIN (R120, R131) -/

theorem getLsbD_lin (x : Word) {i : Nat} (hi : i < 32) :
    (lin x).getLsbD i = (x.getLsbD i ^^ x.getLsbD ((i + 30) % 32) ^^ x.getLsbD ((i + 22) % 32) ^^
      x.getLsbD ((i + 14) % 32) ^^ x.getLsbD ((i + 8) % 32)) := by
  simp only [lin, BitVec.getLsbD_xor, getLsbD_rotl32 x (n := 2) (by decide) hi,
    getLsbD_rotl32 x (n := 10) (by decide) hi, getLsbD_rotl32 x (n := 18) (by decide) hi,
    getLsbD_rotl32 x (n := 24) (by decide) hi]
  rfl

/-- Settles O24: LIN passes every check, and rotation moves each bit. -/
theorem linComputesL : Obligations.LinComputesL := by
  intro rd rs s
  exact ⟨lin s.w[rs], unaryCommand_eq lin rd rs s, fun i hi => getLsbD_lin s.w[rs] hi⟩

/-! ### RND (R122, R130) -/

/-- RND on a window that fits is the round function on its four registers. -/
theorem exec_rnd_of_le {rs : Reg} (rd rt : Reg) (s : State) (h : rs.val ≤ 4) :
    exec (.rnd rd rs rt) s = .next { writeW s rd
      (roundF tauA ⟨s.w[rs.val], s.w[rs.val + 1], s.w[rs.val + 2], s.w[rs.val + 3]⟩ s.w[rt]) with err := .ok } := by
  have he : errorOf (.rnd rd rs rt) s = .ok := by simp [errorOf_rnd, windowBase, h]
  rw [exec_of_written he (by simp [bufferReads]), okResult, readWQuad_of_le s h, readW]

/-- Settles O23: the round where the window fits, the error where it does not. -/
theorem rndComputesOneRound : Obligations.RndComputesOneRound := by
  intro rd rs rt s
  refine ⟨exec_rnd_of_le rd rt s, fun h => ?_⟩
  have he : errorOf (.rnd rd rs rt) s = .illegalCmd := by simp [errorOf_rnd, windowBase, h]
  rw [exec_of_error (by simp [he]), he]

/-! ### Block decryption undoes block encryption (R124, R132) -/

/-- A round on the reversed window takes back a round with the same subkey: both substitute the same word. -/
theorem feistelRound_reverseQuad_feistelRound (tau : Word → Word) (x : Quad) (rk : Word) :
    feistelRound tau (reverseQuad (feistelRound tau x rk)) rk = reverseQuad x := by
  have hinput : roundInput (reverseQuad (feistelRound tau x rk)) rk = roundInput x rk := by
    simp only [roundInput, reverseQuad, feistelRound, shiftIn]
    ac_rfl
  have hword : roundF tau (reverseQuad (feistelRound tau x rk)) rk = x.x0 := by
    rw [roundF, hinput, roundOutput]
    simp only [reverseQuad, feistelRound, shiftIn, roundF, roundOutput, BitVec.xor_assoc, BitVec.xor_self,
      BitVec.xor_zero]
  rw [feistelRound, hword]
  rfl

theorem foldl_reverse_reverseQuad_foldl (tau : Word → Word) (rks : List Word) (x : Quad) :
    rks.reverse.foldl (feistelRound tau) (reverseQuad (rks.foldl (feistelRound tau) x)) = reverseQuad x := by
  induction rks generalizing x with
  | nil => rfl
  | cons rk rks ih =>
    simp only [List.reverse_cons, List.foldl_append, List.foldl_cons, List.foldl_nil, ih]
    exact feistelRound_reverseQuad_feistelRound tau x rk

/-- Decryption undoes encryption, whatever the word substitution and the subkeys (R124, R132). -/
theorem decryptBlock_encryptBlock (tau : Word → Word) (rks : List Word) (p : Quad) :
    decryptBlock tau rks (encryptBlock tau rks p) = p := by
  rw [decryptBlock, encryptBlock, encryptBlock, foldl_reverse_reverseQuad_foldl]
  rfl

/-! ### Blocks and their bytes (R8, R55) -/

theorem byteOf_quadWord_quadFrom (byte : Nat → Byte) (off : Nat) {m j : Nat} (hm : m < 4) (hj : j < 4) :
    byteOf j (quadWord (quadFrom byte off) m) = byte (off + 4 * m + j) := by
  rw [quadWord_quadFrom _ _ hm, wordFrom]
  obtain rfl | rfl | rfl | rfl : j = 0 ∨ j = 1 ∨ j = 2 ∨ j = 3 := by omega
  all_goals simp

/-- A block is the one of its sixteen bytes. -/
theorem quadFrom_eq_of_bytes {byte : Nat → Byte} {off : Nat} {q : Quad}
    (h : ∀ m j, m < 4 → j < 4 → byte (off + 4 * m + j) = byteOf j (quadWord q m)) : quadFrom byte off = q := by
  have hword (m : Nat) (hm : m < 4) : wordFrom byte (off + 4 * m) = quadWord q m := by
    have h0 : byte (off + 4 * m) = byteOf 0 (quadWord q m) := h m 0 hm (by decide)
    rw [wordFrom, h0, h m 1 hm (by decide), h m 2 hm (by decide), h m 3 hm (by decide), wordOf_byteOf]
  calc quadFrom byte off = ⟨quadWord q 0, quadWord q 1, quadWord q 2, quadWord q 3⟩ := by
        rw [← hword 0 (by decide), ← hword 1 (by decide), ← hword 2 (by decide), ← hword 3 (by decide)]
        rfl
    _ = q := rfl

/-! ### DEC after ENC (R126, R127, R132) -/

/-- The bytes of DIN, once a command that reads them has found them written. -/
theorem holds_byteOrZero {len : Nat} (h : ∀ off ∈ (List.range len).map (dinBase + ·), byteAt s.mem off ≠ none) :
    Holds s.mem (byteOrZero s.mem) dinBase len :=
  fun k hk => byteAt_of_ne_none (h _ (List.mem_map.2 ⟨k, List.mem_range.2 hk, rfl⟩))

/-- An ENC that succeeds found DIN written and left the encrypted blocks. -/
theorem exec_enc_succeeds {len : Fin 256} (h : exec (.enc len) s = .next t) (ht : t.err = .ok) :
    Holds s.mem (byteOrZero s.mem) dinBase len.val ∧
      t = { s with mem := cipherMem s.rk.toList len s, err := .ok } := by
  have he : errorOf (.enc len) s = .ok := by
    obtain ⟨-, rfl⟩ | ⟨he, -⟩ := exec_next_cases h
    · exact ht
    · exact he
  obtain ⟨hw, hx⟩ | ⟨off, -, -, hx⟩ := exec_ok_cases (.enc len) s he
  · rw [hx, okResult_enc he] at h
    exact ⟨holds_byteOrZero hw, (Host.Outcome.next.inj h).symm⟩
  · rw [hx] at h; cases h

/-- Byte `j` of the output: byte `j % 4` of word `j % 16 / 4` of block `j / 16`. -/
theorem byteAt_cipherMem_dout {len : Fin 256} {din : Nat → Byte} (rks : List Word) (hlen : 16 * (len.val / 16) = len.val)
    (hd : Holds s.mem din dinBase len.val) {j : Nat} (hj : j < len.val) :
    byteAt (cipherMem rks len s) (doutBase + j) =
      some (byteOf (j % 4) (quadWord (encryptBlock tauA rks (quadFrom din (dinBase + 16 * (j / 16)))) (j % 16 / 4))) := by
  rw [← byteAt_cipherMem rks hd (by omega) (by omega) (by omega)]
  congr 1
  omega

/-- Where the DIN of `s'` is the output of an ENC from `s`, the reversed subkeys give back the DIN of `s`. -/
theorem byteAt_cipherMem_reverse {len : Fin 256} {rks : List Word} {din din' : Nat → Byte}
    (hlen : 16 * (len.val / 16) = len.val)
    (hd : Holds s.mem din dinBase len.val) (hd' : Holds s'.mem din' dinBase len.val)
    (hcopy : ∀ j, j < len.val → byteAt s'.mem (dinBase + j) = byteAt (cipherMem rks len s) (doutBase + j))
    {j : Nat} (hj : j < len.val) :
    byteAt (cipherMem rks.reverse len s') (doutBase + j) = some (din (dinBase + j)) := by
  have hblock (k : Nat) (hk : k < len.val / 16) :
      quadFrom din' (dinBase + 16 * k) = encryptBlock tauA rks (quadFrom din (dinBase + 16 * k)) := by
    refine quadFrom_eq_of_bytes fun m i hm hi => Option.some.inj ?_
    have hlt : 16 * k + 4 * m + i < len.val := by omega
    calc some (din' (dinBase + 16 * k + 4 * m + i))
        = byteAt s'.mem (dinBase + (16 * k + 4 * m + i)) := by rw [hd' _ hlt]; simp only [Nat.add_assoc]
      _ = byteAt (cipherMem rks len s) (doutBase + 16 * k + 4 * m + i) := by
        rw [hcopy _ hlt]; simp only [Nat.add_assoc]
      _ = _ := byteAt_cipherMem rks hd hk hm hi
  rw [byteAt_cipherMem_dout _ hlen hd' hj, hblock _ (by omega), ← decryptBlock, decryptBlock_encryptBlock,
    byteOf_quadWord_quadFrom _ _ (by omega) (by omega)]
  congr 2
  omega

/-- Settles O26: the blocks DEC reads are the encrypted ones, and decryption takes each of them back. -/
theorem decUndoesEnc : Obligations.DecUndoesEnc := by
  intro len s t s' h ht hkv hrk hl hcopy
  obtain ⟨hd, rfl⟩ := exec_enc_succeeds h ht
  have hlen := accepted_is_whole_blocks hl
  have he' : errorOf (.dec len) s' = .ok := errorOf_enc_eq_ok_iff.2 ⟨hl, hkv⟩
  have hd' : Holds s'.mem (byteOrZero s'.mem) dinBase len.val := by
    refine fun j hj => byteAt_of_ne_none ?_
    rw [hcopy j hj, byteAt_cipherMem_dout _ hlen hd hj]
    exact Option.some_ne_none _
  refine ⟨_, exec_of_written he' (dinBytes_written hd'), ?_⟩
  rw [okResult_dec he', hrk]
  refine ⟨rfl, fun j hj => ?_⟩
  rw [hd j hj]
  exact byteAt_cipherMem_reverse hlen hd hd' hcopy hj

/-! ### The backend changes no result (R125, R129, R192) -/

/-- ENC and DEC of 128 bytes have a length every backend accepts, so their checks are of the key alone (R125). -/
theorem errorOf_enc_128 (s : State) : errorOf (.enc 128) s = if !s.kv then .noKey else .ok := by
  have hl : legalLength 128 s.bsel = true := by cases s.bsel <;> rfl
  rw [errorOf_enc, hl]
  rfl

/-- The output of an accepted ENC or DEC does not depend on the backend (R129). -/
theorem cipherMem_bsel (rks : List Word) (len : Fin 256) (s : State) (b : Backend) :
    cipherMem rks len { s with bsel := b } = cipherMem rks len s := rfl

/-- A command ends alike under two backends if its checks and the state it leaves do not depend on them. -/
theorem sameOutcome_exec_bsel {i : Instr} {b b' : Backend}
    (herr : errorOf i { s with bsel := b' } = errorOf i { s with bsel := b })
    (hok : errorOf i { s with bsel := b } = .ok →
      okResult i { s with bsel := b' } = { okResult i { s with bsel := b } with bsel := b' }) :
    SameOutcome (fun t u => u = { t with bsel := b' })
      (exec i { s with bsel := b }) (exec i { s with bsel := b' }) := by
  by_cases he : errorOf i { s with bsel := b } = .ok
  · rw [exec_of_ok he, exec_of_ok (herr.trans he)]
    cases bufferReadOf i s.mem with
    | error f => exact rfl
    | ok qs => exact hok he
  · rw [exec_of_error he, exec_of_error (herr ▸ he), herr]
    exact rfl

/-- Settles O38: ENC 128 and DEC 128 check the key alone and go through τ_A block by block under every backend. -/
theorem backendChangesNoResult : Obligations.BackendChangesNoResult := by
  intro s b b'
  have herr : errorOf (.enc 128) { s with bsel := b' } = errorOf (.enc 128) { s with bsel := b } := by
    simp only [errorOf_enc_128]
  refine ⟨sameOutcome_exec_bsel herr fun he => ?_, sameOutcome_exec_bsel herr fun he => ?_⟩
  · simp only [okResult_enc he, okResult_enc (herr.trans he), cipherMem_bsel]
  · simp only [okResult_dec he, okResult_dec (herr.trans he), cipherMem_bsel]

end Sys2Proof.Machine
end

section
/-! SUPPORT. The table SBOX, the command SUBA, and the word and batch substitutions of the three backends, all equal
to τ_A (spec/42_backend_a_table.md R141 to R144, 43_backend_b_aes.md R157 to R159, 44_backend_c_simd.md R174, R176). -/

namespace Sys2Proof.Machine

/-! ### SBOX is a permutation (R141) -/

/-- The place of a byte among the entries of SBOX, row by row. -/
def sboxIndex (y : Byte) : Byte := BitVec.ofNat 8 ((sboxRows.toList.flatMap Vector.toList).idxOf y)

/-- Entry x of SBOX stands nowhere before place x, so no byte is there twice. -/
theorem sboxIndex_leftInverse : Function.LeftInverse sboxIndex sbox := by
  unfold Function.LeftInverse
  decide +kernel

/-- Settles O27: SBOX has a left inverse, and an injection of the finite set of bytes into itself is onto. -/
theorem sboxIsAPermutation : Obligations.SboxIsAPermutation := by
  have hinj : Function.Injective sbox := sboxIndex_leftInverse.injective
  have hsurj : Function.Surjective sbox := Finite.surjective_of_injective hinj
  exact ⟨hinj, hsurj, rfl⟩

/-! ### SUBA (R142, R143) -/

theorem byteOf_onBytes (f : Byte → Byte) (x : Word) {j : Nat} (hj : j < 4) :
    byteOf j (onBytes f x) = f (byteOf j x) := by
  unfold onBytes
  match j, hj with
  | 0, _ => exact byteOf_wordOf_0 ..
  | 1, _ => exact byteOf_wordOf_1 ..
  | 2, _ => exact byteOf_wordOf_2 ..
  | 3, _ => exact byteOf_wordOf_3 ..

/-- Settles O33: SUBA is the unary command of τ_A, which works on each byte in its place. -/
theorem subaSubstitutesEachByte : Obligations.SubaSubstitutesEachByte := fun rd rs s =>
  ⟨tauA s.w[rs], unaryCommand_eq tauA rd rs s, fun _ hj => byteOf_onBytes sbox s.w[rs] hj⟩

/-! ### The word substitutions (R157, R174) -/

/-- One pass of the unit works on each byte in its place: reading back undoes ShiftRows, and the key is zero. -/
theorem unitPass_apply (st : AesState) (j : Fin 16) : unitPass st j = outOfAes (aesSbox (st j)) := by
  simp [unitPass, aesEncLast, shiftRows, subBytes, shiftSource_shiftPos, zeroKey]

/-- τ_B substitutes the four bytes of column 0, whatever the other twelve bytes of the state hold (R157). -/
theorem tauB_eq_onBytes (x : Word) : tauB x = onBytes sbB x := by
  simp only [tauB, unitPass_apply]
  rfl

theorem tauB_eq_tauA (x : Word) : tauB x = tauA x :=
  (tauB_eq_onBytes x).trans (onBytes_congr sbB_eq_sbox x)

/-- Settles O32: all three substitute SBOX in each byte. -/
theorem wordSubstitutionsAgree : Obligations.WordSubstitutionsAgree := fun x =>
  ⟨tauB_eq_tauA x, fun gather => tauC_eq_tauA gather x⟩

/-! ### The batch data paths (R144, R158, R159, R176) -/

/-- Settles O37: in every round the batch substitution is τ_A in every lane, four lanes to an AES state. -/
theorem batchPathsEqualBlockwiseEncryption : Obligations.BatchPathsEqualBlockwiseEncryption :=
  fun b gather rks blocks h4 => transformBlocks_eq_map b gather rks blocks (.inl h4)

end Sys2Proof.Machine
end

section
/-! SUPPORT. Backend B: inverses in the AES field, the AES S-box, the byte substitutions, and the commands SUBB and
AESL (spec/43_backend_b_aes.md R151 to R161). -/

namespace Sys2Proof.Machine

/-! ### The bytes of AESL's operands and result (R153, R154) -/

/-- The word of column c is made of the four bytes from `4c` on (R161). -/
theorem byteOf_quadOfAes (v : AesState) {c r : Nat} (hc : c < 4) (hr : r < 4) :
    byteOf r (quadWord (quadOfAes v) c) = v (Fin.ofNat 16 (0 + 4 * c + r)) :=
  byteOf_quadWord_quadFrom (fun k => v (Fin.ofNat 16 k)) 0 hc hr

theorem aesStateOf_apply (q : Quad) (j : Fin 16) : aesStateOf q j = byteOf (j.val % 4) (quadWord q (j.val / 4)) := rfl

/-- The unit on two groups of words: the S-box of row r of column `(c + r) mod 4` of the state, under the key. -/
theorem byteOf_quadOfAes_aesEncLast (q k : Quad) {c r : Nat} (hc : c < 4) (hr : r < 4) :
    byteOf r (quadWord (quadOfAes (aesEncLast (aesStateOf q) (aesStateOf k))) c) =
      aesSbox (byteOf r (quadWord q ((c + r) % 4))) ^^^ byteOf r (quadWord k c) := by
  have hj : (Fin.ofNat 16 (0 + 4 * c + r)).val = 4 * c + r := by rw [Fin.val_ofNat]; omega
  have hsrc : (shiftSource (Fin.ofNat 16 (0 + 4 * c + r))).val = 4 * ((c + r) % 4) + r := by
    rw [shiftSource, hj, Fin.val_ofNat]; omega
  have row (n : Nat) : (4 * n + r) % 4 = r := by omega
  have column (n : Nat) : (4 * n + r) / 4 = n := by omega
  simp only [byteOf_quadOfAes _ hc hr, aesEncLast, shiftRows, subBytes, aesStateOf_apply, hj, hsrc, row, column]

/-! ### Groups of registers (R76, R161) -/

theorem quadWord_readWQuad (s : State) (b : Reg) {c : Nat} (hc : c < 4) :
    quadWord (readWQuad s b) c = s.w[b + Fin.ofNat 8 c] := by
  match c, hc with
  | 0, _ => exact congrArg (readW s) (add_zero b).symm
  | 1, _ | 2, _ | 3, _ => rfl

theorem writeW_self (s : State) (r : Reg) (v : Word) :
    (writeW s r v).w[r] = v ∧ (writeW s r v).wWritten[r] = true :=
  ⟨Vector.getElem_set_self r.isLt, Vector.getElem_set_self r.isLt⟩

theorem writeW_keeps_written {s : State} {r q : Reg} {x : Word} (v : Word) (h : q ≠ r)
    (hq : s.w[q] = x ∧ s.wWritten[q] = true) : (writeW s r v).w[q] = x ∧ (writeW s r v).wWritten[q] = true := by
  simpa only [writeW_of_ne v h] using hq

/-- The four registers of a group are distinct, so a write of the group leaves in each its own word. -/
theorem writeWQuad_group (s : State) (b : Reg) (q : Quad) {c : Nat} (hc : c < 4) :
    (writeWQuad s b q).w[b + Fin.ofNat 8 c] = quadWord q c ∧ (writeWQuad s b q).wWritten[b + Fin.ofNat 8 c] = true := by
  have distinct (x y : Reg) (h : x ≠ y) : b + x ≠ b + y := (add_right_injective b).ne h
  have hquad : writeWQuad s b q =
      writeW (writeW (writeW (writeW s (b + 0) q.x0) (b + 1) q.x1) (b + 2) q.x2) (b + 3) q.x3 := by
    rw [add_zero, writeWQuad]
  rw [hquad]
  match c, hc with
  | 0, _ =>
    exact writeW_keeps_written _ (distinct 0 3 (by decide)) (writeW_keeps_written _ (distinct 0 2 (by decide))
      (writeW_keeps_written _ (distinct 0 1 (by decide)) (writeW_self ..)))
  | 1, _ =>
    exact writeW_keeps_written _ (distinct 1 3 (by decide)) (writeW_keeps_written _ (distinct 1 2 (by decide))
      (writeW_self ..))
  | 2, _ => exact writeW_keeps_written _ (distinct 2 3 (by decide)) (writeW_self ..)
  | 3, _ => exact writeW_self ..

/-! ### AESL (R161) -/

/-- Settles O36: with the unit the group holds the unit's result byte by byte; else AESL ends with its error. -/
theorem aeslComputesTheFinalRound : Obligations.AeslComputesTheFinalRound := by
  intro rd rs rt s
  have herr := errorOf_aesl rd rs rt s
  refine ⟨fun hd hs ht hcap => ?_, fun hd hs ht hcap => ?_, fun hbase => ?_⟩
  · have he : errorOf (.aesl rd rs rt) s = .ok := by simp [herr, hd, hs, ht, hcap]
    refine ⟨okResult (.aesl rd rs rt) s, exec_of_written he (by simp [bufferReads]), rfl, fun c r hc hr => ?_,
      fun c hc => (writeWQuad_group s rd _ hc).2, fun q hq => writeWQuad_of_notMem_group _ hq⟩
    have hw : (okResult (.aesl rd rs rt) s).w[rd + Fin.ofNat 8 c] = quadWord _ c := (writeWQuad_group s rd _ hc).1
    rw [hw, byteOf_quadOfAes_aesEncLast _ _ hc hr, quadWord_readWQuad s rs (Nat.mod_lt _ (by decide)),
      quadWord_readWQuad s rt hc]
  · have he : errorOf (.aesl rd rs rt) s = .noCap := by simp [herr, hd, hs, ht, hcap]
    rw [exec_of_error (by simp [he]), he]
  · have he : errorOf (.aesl rd rs rt) s = .illegalCmd := by simp [herr, hbase]
    rw [exec_of_error (by simp [he]), he]

/-! ### The inverse and the byte substitutions (R151, R152, R156, R171 to R173) -/

theorem toNat_gmulAes (a b : Byte) : (gmulAes a b).toNat = natGmulLoop 0x1B b.toNat 8 0 a.toNat 0 :=
  toNat_gmulLoop 0x1B b 8 0 a 0

/-- Settles O28: the product of each of the 255 non-zero bytes with its inverse, computed on natural numbers. -/
theorem invSoftInvertsInTheAesField : Obligations.InvSoftInvertsInTheAesField := by
  have all : ∀ a : Byte, a ≠ 0 → natGmulLoop 0x1B (natPowChain 0x1B 7 a.toNat 1) 8 0 a.toNat 0 = 1 := by
    decide +kernel
  refine ⟨fun a ha => BitVec.eq_of_toNat_eq ?_, BitVec.eq_of_toNat_eq ?_⟩
  · rw [toNat_gmulAes, toNat_invSoft, all a ha]
    rfl
  · rw [toNat_invSoft]
    rfl

/-- Settles O29: the formula is the software S-box of R172. -/
theorem aesSboxIsTheAffineInverse : Obligations.AesSboxIsTheAffineInverse := fun u => (sboxSoft_eq_aesSbox u).symm

/-- Settles O31: B by evaluation at every byte, C by B's identity without gather and by definition with it. -/
theorem byteSubstitutionsEqualSbox : Obligations.ByteSubstitutionsEqualSbox := fun x =>
  ⟨sbB_eq_sbox x, sbC_eq_sbox false x, sbC_eq_sbox true x⟩

/-! ### SUBB (R160) -/

/-- Settles O34: with the unit SUBB writes τ_B, which is τ_A. -/
theorem subbEqualsSubaOrNoCap : Obligations.SubbEqualsSubaOrNoCap := by
  intro rd rs s
  have herr := errorOf_subb rd rs s
  refine ⟨fun hcap => ?_, fun hcap => ?_⟩
  · have he : errorOf (.subb rd rs) s = .ok := by simp [herr, hcap]
    rw [exec_of_written he (by simp [bufferReads]), okResult, tauB_eq_tauA, readW]
  · have he : errorOf (.subb rd rs) s = .noCap := by simp [herr, hcap]
    rw [exec_of_error (by simp [he]), he]

end Sys2Proof.Machine
end

section
/-! SUPPORT. Backend C: the direct form of SBOX in SM4's own field, and the command SUBC
(spec/44_backend_c_simd.md R175, R177). -/

namespace Sys2Proof.Machine

/-! ### The direct form of SBOX (R177) -/

/-- `inv_SM4` by the chain on natural numbers (R177). -/
theorem toNat_invSm4 (a : Byte) : (invSm4 a).toNat = natPowChain 0xF5 7 a.toNat 1 :=
  toNat_powChain (red := 0xF5) (fun _ _ => rfl) 7 a 1

/-- SM4's direct form is the table of R140, checked at every byte with the inverse taken on natural numbers. -/
theorem sboxDirect_eq_sbox (x : Byte) : sboxDirect x = sbox x := by
  have all : ∀ x : Byte,
      affine aSm4 0xD3 (BitVec.ofNat 8 (natPowChain 0xF5 7 (affine aSm4 0xD3 x).toNat 1)) = sbox x := by
    decide +kernel
  rw [← all x, ← toNat_invSm4, BitVec.ofNat_toNat, BitVec.setWidth_eq, sboxDirect]

/-- Settles O30: the formula is the model's direct form. -/
theorem sboxHasTheDirectForm : Obligations.SboxHasTheDirectForm := fun x => (sboxDirect_eq_sbox x).symm

/-! ### SUBC (R175) -/

/-- Settles O35: SUBC is the unary command of τ_C, which is τ_A with gather or without it. -/
theorem subcEqualsSuba : Obligations.SubcEqualsSuba := by
  intro rd rs s
  calc exec (.subc rd rs) s = unaryCommand (tauC s.cap.hasGather) rd rs s := rfl
    _ = .next { writeW s rd (tauA s.w[rs]) with err := .ok } := by rw [unaryCommand_eq, tauC_eq_tauA, readW]

end Sys2Proof.Machine
end

section
/-! SUPPORT. Backend selection: the command SELB (spec/45_config.md R190). -/

namespace Sys2Proof.Machine

/-- Settles O39: the one check of SELB is the AES unit of Backend B; past it, SELB writes BSEL. -/
theorem selbSelectsOrReportsNoCap : Obligations.SelbSelectsOrReportsNoCap := by
  intro b s
  refine ⟨fun hnone => ?_, fun hpresent => ?_⟩
  · have he : errorOf (.selb b) s = .noCap := by rw [errorOf_selb, if_pos hnone]
    rw [exec_of_error (by simp [he]), he]
  · have he : errorOf (.selb b) s = .ok := by rw [errorOf_selb, if_neg hpresent]
    rw [exec_of_written he (by simp [bufferReads]), okResult]

end Sys2Proof.Machine
end

section
/-! SUPPORT. STATUS.ERR after a command, and what a failed command leaves (spec/60_exceptions.md R200 to R208). -/

namespace Sys2Proof.Machine

variable {i : Instr} {s t : State} {v : Word}

/-- A successful command reports OK (R200). -/
@[simp] theorem okResult_err (i : Instr) (s : State) : (okResult i s).err = .ok := by
  cases i with
  | keyinit len => simp only [okResult]
  | keyrel => simp only [okResult, apply_ite State.err, ite_self]
  | _ => rfl

/-! ### Command words -/

theorem wordErrorOf_of_decode (h : decode v = .ok i) (s : State) : wordErrorOf v s = errorOf i s := by
  simp [wordErrorOf, h]

theorem wordErrorOf_of_illegal {e : IllegalWord} (h : decode v = .error e) (s : State) :
    wordErrorOf v s = .illegalCmd := by
  simp [wordErrorOf, h]

/-- The checks of a command word read CAP, BSEL and KV and nothing else. -/
theorem wordErrorOf_congr (v : Word) (hcap : t.cap = s.cap) (hbsel : t.bsel = s.bsel) (hkv : t.kv = s.kv) :
    wordErrorOf v t = wordErrorOf v s := by
  cases hd : decode v with
  | error e => rw [wordErrorOf_of_illegal hd, wordErrorOf_of_illegal hd]
  | ok i => rw [wordErrorOf_of_decode hd, wordErrorOf_of_decode hd, errorOf_congr i hcap hbsel hkv]

/-- A command word that has an error, illegal or not, reports it and changes nothing else (R206). -/
theorem issue_of_error (h : wordErrorOf v s ≠ .ok) : issue v s = .next { s with err := wordErrorOf v s } := by
  cases hd : decode v with
  | error e => rw [issue_of_illegal hd, wordErrorOf_of_illegal hd]
  | ok i =>
    rw [wordErrorOf_of_decode hd] at h ⊢
    rw [issue_of_decode hd, exec_of_error h]

/-! ### The obligations on how every command ends -/

/-- Settles O10: the step is the command write, whose checks do not read the events to come. -/
theorem failedCommandChangesOnlyErr : Obligations.FailedCommandChangesOnlyErr := by
  intro s rest v hs herr
  have herr' : wordErrorOf v { s with host := rest } = wordErrorOf v s := wordErrorOf_congr v rfl rfl rfl
  rw [step_cons hs, hostEvent_cmd, issue_of_error (herr' ▸ herr), herr']

/-- Settles O11, by the two ends of a command. -/
theorem errIsTheCodeOfTheLastCommand : Obligations.ErrIsTheCodeOfTheLastCommand := by
  intro i s t h
  obtain ⟨-, rfl⟩ | ⟨he, rfl⟩ := exec_next_cases h
  · rfl
  · rw [okResult_err, he]

/-- Settles O13: with its checks passed and its bytes written, a command ends in `okResult`. -/
theorem everyCommandCompletes : Obligations.EveryCommandCompletes := fun i s he hw =>
  ⟨okResult i s, exec_of_written he hw, okResult_err i s⟩

end Sys2Proof.Machine
end

section
/-! SUPPORT. A step with no event left (spec/70_reset_and_hazards.md R239; log 15). -/

namespace Sys2Proof.Machine

/-- Settles O3, by the law of a step whose event list is empty. -/
theorem stepWithNoAccessLeftChangesNothing : Obligations.StepWithNoAccessLeftChangesNothing :=
  fun _ hnone => step_nil hnone

end Sys2Proof.Machine
end
